-- ==== Sys2Proof/Word.lean ====
section
/-! DEFINITION. The words of the machine: a cell, an instruction symbol and a stream element are one byte each
(20_memory.md R44). A character of source or input text is its code point, a plain natural number
(92_eei_decisions.md D5): it is compared and truncated, and software never sees it as a word. -/

namespace Sys2Proof

/-- One unsigned 8-bit unit: a tape cell (R13), an instruction symbol (R60), an input or output byte (R16, R17). -/
abbrev Byte := BitVec 8

end Sys2Proof
end

