-- ==== Sys2Proof/Config.lean ====
section
/-! DEFINITION. The implementation parameters of 00_scope.md R5, as one record of plain data. A machine carries its
record in `State.config`, where no operation writes it, so a statement about every state is a statement about every
value of the parameters. There is no free value: the spec leaves no value of an instruction's result open. -/

namespace Sys2Proof

/-- The parameters of 00_scope.md R5 (R6: nothing else is configurable). A capacity `none` is the spec's `∞`.
`PTRW` and `PCW` are derived from these (`Machine.ptrWidth`, `Machine.pcWidth`), and the cell width is fixed at 8. -/
structure Config where
  /-- `TAPE_LEN`, the number of cells of the tape; at least 1 (D2). -/
  tapeLen : Nat
  /-- `PROG_CAP`, the longest instruction sequence (D3). -/
  progCap : Option Nat
  /-- `IN_CAP`, the longest input queue (D3). -/
  inCap : Option Nat
  /-- `OUT_CAP`, the longest output buffer (D3). -/
  outCap : Option Nat
  /-- `SRC_CAP`, the longest source text (D3). -/
  srcCap : Option Nat
  /-- `CHARW`, the width of a character code; at least 8 (D5). -/
  charW : Nat
  /-- The part of `BYTE_OF_CHAR` that an implementation fixes for itself: the bytes of those characters above 255
  for which it differs from the default `c mod 256`, each with its byte (D6). Character codes have `CHARW` bits, so
  such a list writes down every function the spec admits. -/
  wideBytes : List (Nat × Byte)
  /-- `RESET_REWINDS_INPUT`: whether `RESET` alone sets the input cursor back (D7). -/
  resetRewindsInput : Bool
  /-- `DELAYW`, the width of `STEP_DELAY`; at least 1 (D14). -/
  delayW : Nat
  /-- `BATCHW`, the width of `STEPS_PER_BATCH`; at least 1 (D14). -/
  batchW : Nat
  deriving DecidableEq, Repr

/-- The default of every parameter, the last column of R5's table.
DESIGN CHOICE of the spec (D2, D3, D5, D6, D7, D14; log entry 1). -/
def Config.standard : Config where
  tapeLen := 30000
  progCap := none
  inCap := none
  outCap := none
  srcCap := none
  charW := 21
  wideBytes := []
  resetRewindsInput := false
  delayW := 32
  batchW := 32

end Sys2Proof
end

