-- ==== Sys2Proof/Syntax.lean ====
section
/-! DEFINITION. The eight instructions of 30_encoding.md R61, one constructor per row of spec/opcode_table.json. -/

namespace Sys2Proof

/-- An instruction. None has an explicit operand (R64): each works on `PTR`, on the current cell, on the two streams
or on `PC`. The row `IN` is the constructor `inp`, since the plain word is a keyword of Lean. -/
inductive Instr where
  /-- `RIGHT`, move-right, glyph `>` (R100). -/
  | right
  /-- `LEFT`, move-left, glyph `<` (R101). -/
  | left
  /-- `INC`, increment, glyph `+` (R105). -/
  | inc
  /-- `DEC`, decrement, glyph `-` (R106). -/
  | dec
  /-- `OUT`, write, glyph `.` (R110). -/
  | out
  /-- `IN`, read, glyph `,` (R111). -/
  | inp
  /-- `JZ`, jump-if-zero, glyph `[` (R116). -/
  | jz
  /-- `JNZ`, jump-if-nonzero, glyph `]` (R119). -/
  | jnz
  deriving DecidableEq, Repr

end Sys2Proof
end

