-- ==== Sys2Proof/WellFormed.lean ====
section
/-! DEFINITION. The checks on what is given to the machine: the parameters (00_scope.md R5) and the characters of a
text (92_eei_decisions.md D5). An instruction has no operand (30_encoding.md R64), so nothing of it is left to
check; a raw sequence of symbols is checked by `programInAlphabet` (Decode.lean). Bracket nesting is NOT checked
anywhere: every sequence of symbols is a valid program (R69). -/

namespace Sys2Proof

/-- Every instruction is well formed: there is one format with one field and no operand (R60, R64). -/
def Instr.wf : Instr → Bool
  | .right | .left | .inc | .dec | .out | .inp | .jz | .jnz => true

/-- `n` is within the capacity `cap`, `none` being the spec's `∞` (R5, D3). -/
def withinCap (cap : Option Nat) (n : Nat) : Bool :=
  match cap with
  | none => true
  | some c => decide (n ≤ c)

/-- `SRC_CAP` is an integer at least `PROG_CAP`, or `∞` (R5). -/
def Config.srcCapCoversProgCap (c : Config) : Bool :=
  match c.srcCap, c.progCap with
  | none, _ => true
  | some _, none => false
  | some sc, some pc => decide (pc ≤ sc)

/-- The constraint column of R5's table. -/
def Config.wf (c : Config) : Bool :=
  decide (1 ≤ c.tapeLen) && c.srcCapCoversProgCap && decide (8 ≤ c.charW)
    && c.wideBytes.all (fun p => decide (255 < p.1) && decide (p.1 < 2 ^ c.charW))
    && decide (1 ≤ c.delayW) && decide (1 ≤ c.batchW)

/-- Every character of a text has a code of `CHARW` bits (R80, D5). -/
def textWf (c : Config) (text : List Nat) : Bool :=
  text.all (fun ch => decide (ch < 2 ^ c.charW))

end Sys2Proof
end

