-- ==== Sys2Proof/Decode.lean ====
section
/-! DEFINITION. The decoder and the encoder of the one format `SYM` (30_encoding.md R60 to R67): a symbol is the
8-bit character code of its glyph, and decoding is an equality test on all eight bits. -/

namespace Sys2Proof

/-- Why bytes are no instruction. -/
inductive DecodeError where
  /-- The code is one of the 248 unused ones (R66): no meaning is given to it (R67, D10). -/
  | notInAlphabet (code : Byte)
  /-- There is no symbol to decode. -/
  | noSymbol
  deriving DecidableEq, Repr

/-- The instruction of a symbol, by the code table of R62 (mask `0xFF`). -/
def decodeSymbol (c : Byte) : Except DecodeError Instr :=
  if c = 0x3E#8 then .ok .right
  else if c = 0x3C#8 then .ok .left
  else if c = 0x2B#8 then .ok .inc
  else if c = 0x2D#8 then .ok .dec
  else if c = 0x2E#8 then .ok .out
  else if c = 0x2C#8 then .ok .inp
  else if c = 0x5B#8 then .ok .jz
  else if c = 0x5D#8 then .ok .jnz
  else .error (.notInAlphabet c)

/-- The first instruction of a sequence of symbols and the symbols after it: every instruction is exactly one symbol,
and none changes how a later one is decoded (R60, R65). -/
def decode : List Byte → Except DecodeError (Instr × List Byte)
  | [] => .error .noSymbol
  | c :: rest =>
    match decodeSymbol c with
    | .ok i => .ok (i, rest)
    | .error e => .error e

/-- A whole sequence of symbols as instructions, refused at the first symbol that is none (R67). -/
def decodeProgram : List Byte → Except DecodeError (List Instr)
  | [] => .ok []
  | c :: rest =>
    match decodeSymbol c with
    | .error e => .error e
    | .ok i =>
      match decodeProgram rest with
      | .error e => .error e
      | .ok p => .ok (i :: p)

/-- The symbol is one of the eight (R61). -/
def inAlphabet (c : Byte) : Bool :=
  match decodeSymbol c with
  | .ok _ => true
  | .error _ => false

/-- Every element of the sequence is one of the eight codes: R67's check on a program given directly. -/
def programInAlphabet (p : List Byte) : Bool := p.all inAlphabet

/-- The code of an instruction, R62's table. -/
def encode : Instr → Byte
  | .right => 0x3E#8
  | .left => 0x3C#8
  | .inc => 0x2B#8
  | .dec => 0x2D#8
  | .out => 0x2E#8
  | .inp => 0x2C#8
  | .jz => 0x5B#8
  | .jnz => 0x5D#8

/-- The symbols of a program, in index order (R70). -/
def encodeProgram (p : List Instr) : List Byte := p.map encode

/-- The instruction the decoder reads from a word of the opcode table: every row has exactly the 8 bits of one
symbol (R60), so a word of another width, or with a bit above them, is none. -/
def decodeTableWord (nbits w : Nat) : Option Instr :=
  if nbits = 8 ∧ w < 256 then
    match decode [BitVec.ofNat 8 w] with
    | .ok (i, _) => some i
    | .error _ => none
  else none

end Sys2Proof
end

