-- ==== Sys2Proof/Machine/State.lean ====
section
/-! DEFINITION. The architectural state of one engine instance (10_state.md R10), the reasons a step or a host
operation stops, and the state after reset. There is no register, flag, stack, mode, exception or interrupt state
(R10, R21, R22, 60_exceptions.md R140 to R147), and the depth counter and the scan position of a jump live inside
one step only (R23). -/

namespace Sys2Proof.Machine

/-- The tape's contents: the cells that do not hold the value of an unlisted one, addresses strictly rising
(`Memory.wf`). -/
abbrev Memory := List Host.Cell

/-- What a cell that is not listed reads as: the tape is "all zero-initialized" (R13). -/
def unlistedCell : Byte := 0#8

/-- `RUN_STATE` (R18). -/
inductive RunState where
  /-- "not started / halted". -/
  | idle
  /-- "actively stepping, possibly under timer control". -/
  | running
  /-- "stopped mid-execution, resumable". -/
  | paused
  deriving DecidableEq, Repr

/-- The state of one engine instance, R10's list. `PLEN` is the length of `imem` (`State.plen`; log entry 5). -/
structure State where
  /-- The parameters of R5, fixed for the machine: no operation writes them. -/
  config : Config
  /-- `IMEM`, the instruction sequence: one 8-bit code per symbol (R14, R60). -/
  imem : List Byte
  /-- `SRCMAP`: the source offset of each symbol (R15). -/
  srcMap : List Nat
  /-- `INQ`, the input bytes (R16). -/
  inq : List Byte
  /-- `IN_POS`, the input cursor (R16). -/
  inPos : Nat
  /-- `TAPE`, the cells (R13). -/
  tape : Memory
  /-- `PTR`, the index of the current cell (R12). -/
  ptr : Nat
  /-- `PC`, the index of the next instruction (R11). -/
  pc : Nat
  /-- `OUT`, the output buffer, oldest byte first (R17). -/
  out : List Byte
  /-- `RUN_STATE` (R18). -/
  runState : RunState
  /-- `PENDING`: whether the host has a deferred invocation outstanding (R19). -/
  pending : Bool
  /-- `STEP_DELAY` (R20). -/
  stepDelay : Nat
  /-- `STEPS_PER_BATCH` (R20). -/
  stepsPerBatch : Nat
  deriving DecidableEq, Repr

/-- Why the machine stops. No state that meets the invariant of R24 raises `cellOutOfRange`, and none with an
unbounded output buffer raises `outputFull`: the spec's own set of exceptions is empty (R140). -/
inductive Fault where
  /-- `PTR` is no index of the tape: raised by the six instructions that use the current cell. The spec says such an
  address cannot arise (R42). Safe (log entry 9). -/
  | cellOutOfRange
  /-- The `OUT` instruction with the output buffer at a finite `OUT_CAP`: the machine is stuck (R110, D3, U10).
  Safe (log entry 10). -/
  | outputFull
  deriving DecidableEq, Repr

/-- What the model gives no meaning to. -/
inductive Refusal where
  /-- An instruction that has no meaning yet: only `exec`'s arms raise it, and none does. Safe. -/
  | notModelled (mnemonic : String)
  /-- The instruction memory holds a code outside the eight: raised by the fetch (R67, D10, U12).
  Safe (log entry 6). -/
  | symbolNotInAlphabet
  /-- A `LOAD` whose text holds a number that is no code of `CHARW` bits (R80, D5). Safe (log entry 12). -/
  | characterOutOfRange
  /-- A `LOAD` whose source text exceeds `SRC_CAP` (R83, D3, U9). Safe (log entry 12). -/
  | sourceTooLong
  /-- A `LOAD` whose program exceeds `PROG_CAP` (R83, D3, U9). Safe (log entry 12). -/
  | programTooLong
  /-- A `LOAD` whose input text exceeds `IN_CAP` (R83, D3, U9). Safe (log entry 12). -/
  | inputTooLong
  /-- `GET_CELL` of an index outside the tape (R127, D16, U11). Safe (log entry 13). -/
  | cellIndexOutsideTape
  /-- `SET_DELAY` or `SET_BATCH` of a value that does not fit the register (R131). Safe (log entry 14). -/
  | settingOutOfRange
  deriving DecidableEq, Repr

/-- The machine before any host operation, at the default parameters: R25's power-on column (R157, D11; log entry 2).
`STEP_DELAY` and `STEPS_PER_BATCH` are unspecified there: zero is a DESIGN CHOICE, unsafe (log entry 3). -/
def State.reset : State where
  config := Config.standard
  imem := []
  srcMap := []
  inq := []
  inPos := 0
  tape := []
  ptr := 0
  pc := 0
  out := []
  runState := .idle
  pending := false
  stepDelay := 0
  stepsPerBatch := 0

end Sys2Proof.Machine
end

