-- ==== Sys2Proof/Machine/Ops.lean ====
section
/-! DEFINITION. The named operations over the tape, the state's fields, the program counter and the instruction
memory. There is no operation that takes an exception or returns from one: the set of exceptions is empty, nothing
is saved and there is no handler (60_exceptions.md R140, R145, R146). -/

namespace Sys2Proof.Machine

/-! The tape (20_memory.md R40 to R55). -/

/-- `MemRead(a, 1) = TAPE[a]` (R7, R55). -/
def Memory.read : Memory → Nat → Byte
  | [], _ => unlistedCell
  | (b, w) :: m, a => if a = b then w else Memory.read m a

/-- A cell in front of a tape, left out where it holds what an unlisted cell reads as. -/
def Memory.put (a : Nat) (v : Byte) (m : Memory) : Memory :=
  if v = unlistedCell then m else (a, v) :: m

/-- `MemWrite(a, 1, v)`, that is `TAPE[a] <- v` (R7, R55), keeping the canonical form. -/
def Memory.write : Memory → Nat → Byte → Memory
  | [], a, v => Memory.put a v []
  | (b, w) :: m, a, v =>
    if a < b then Memory.put a v ((b, w) :: m)
    else if a = b then Memory.put a v m
    else (b, w) :: Memory.write m a v

/-- From the address `lo` on: addresses strictly rising, no cell that holds what an unlisted one reads as. -/
def Memory.wfFrom : Nat → Memory → Bool
  | _, [] => true
  | lo, (b, w) :: m => decide (lo ≤ b) && decide (w ≠ unlistedCell) && Memory.wfFrom (b + 1) m

/-- The canonical form of a tape: equal tapes are equal lists. -/
def Memory.wf (m : Memory) : Bool := Memory.wfFrom 0 m

/-- Every listed cell is one of the `len` cells of the tape (R41). -/
def Memory.within (len : Nat) (m : Memory) : Bool := m.all (fun c => decide (c.1 < len))

/-! The one way each field is written. -/

/-- `PTR <- v`. -/
def State.withPtr (s : State) (v : Nat) : State := { s with ptr := v }

/-- `PC <- v`. -/
def State.withPc (s : State) (v : Nat) : State := { s with pc := v }

/-- The tape replaced. -/
def State.withTape (s : State) (m : Memory) : State := { s with tape := m }

/-- `OUT <- o`. -/
def State.withOut (s : State) (o : List Byte) : State := { s with out := o }

/-- `IN_POS <- v`. -/
def State.withInPos (s : State) (v : Nat) : State := { s with inPos := v }

/-- `INQ <- q`. -/
def State.withInq (s : State) (q : List Byte) : State := { s with inq := q }

/-- `(IMEM, SRCMAP) <- (p, m)`, and with it `PLEN`. -/
def State.withProgram (s : State) (p : List Byte) (m : List Nat) : State := { s with imem := p, srcMap := m }

/-- `RUN_STATE <- r`. -/
def State.withRunState (s : State) (r : RunState) : State := { s with runState := r }

/-- `PENDING <- b`. -/
def State.withPending (s : State) (b : Bool) : State := { s with pending := b }

/-- `STEP_DELAY <- v`. -/
def State.withStepDelay (s : State) (v : Nat) : State := { s with stepDelay := v }

/-- `STEPS_PER_BATCH <- v`. -/
def State.withStepsPerBatch (s : State) (v : Nat) : State := { s with stepsPerBatch := v }

/-! Program counter and halting (41_step_cycle.md R90 to R94). -/

/-- `PLEN`, the length of the instruction sequence (R14). -/
abbrev State.plen (s : State) : Nat := s.imem.length

/-- The machine is halted: `PC ≥ PLEN` (R90). -/
abbrev State.halted (s : State) : Prop := s.plen ≤ s.pc

/-- The result `continues` of a `STEP`, computed from the state it leaves: `PC < PLEN` (R94, R21). -/
def State.continues (s : State) : Bool := decide (s.pc < s.plen)

/-- The post-dispatch advance `PC <- PC + 1` (R93, C1). -/
def advance (s : State) : State := s.withPc (s.pc + 1)

/-- What a `STEP` does to a halted machine: `RUN_STATE <- Idle` and nothing else (R91). -/
def haltedNoOp (s : State) : State := s.withRunState .idle

/-! The fetch (R92, 30_encoding.md R67). -/

/-- The instruction at `PC`. The whole program is checked first: a code outside the eight is refused and never
skipped, by a scan either (R67, D10; log entry 6). -/
def fetch (s : State) : Except Refusal Instr :=
  if programInAlphabet s.imem then
    match s.imem[s.pc]? with
    | none => .error .symbolNotInAlphabet
    | some c =>
      match decodeSymbol c with
      | .ok i => .ok i
      | .error _ => .error .symbolNotInAlphabet
  else .error .symbolNotInAlphabet

/-- The symbol `c` placed where the next `STEP` fetches. A halted machine fetches nowhere: there the one-symbol
program `c` is loaded and `PC` is its first index (log entry 4). -/
def placeSymbol (s : State) (c : Byte) : State :=
  if s.pc < s.plen then s.withProgram (s.imem.set s.pc c) s.srcMap
  else (s.withProgram [c] [0]).withPc 0

/-! The jump resolver (45_jumps.md R115): pure functions of the program and the index of the jump. -/

/-- `DEPTH` after the forward scan has read the symbol `c`. -/
def depthAfterFwd (c : Byte) (d : Nat) : Nat :=
  if c = encode .jz then d + 1 else if c = encode .jnz then d - 1 else d

/-- `DEPTH` after the backward scan has read the symbol `c`. -/
def depthAfterBwd (c : Byte) (d : Nat) : Nat :=
  if c = encode .jnz then d + 1 else if c = encode .jz then d - 1 else d

/-- The forward scan's loop: the symbols from position `p` on, and the depth before them. -/
def fwdScan : List Byte → Nat → Nat → Nat
  | [], p, _ => p
  | c :: rest, p, d =>
    if depthAfterFwd c d = 0 then p else fwdScan rest (p + 1) (depthAfterFwd c d)

/-- `FwdStop(i)`: the index of the matching `JNZ`, or `PLEN` where the scan runs off the end. -/
def fwdStop (imem : List Byte) (i : Nat) : Nat := fwdScan (imem.drop (i + 1)) (i + 1) 1

/-- The backward scan's loop, from position `p`: the next symbol read is the one before `p`. A position outside the
program (no jump is there) reads no bracket. -/
def bwdScan (imem : List Byte) : Nat → Nat → Option Nat
  | 0, _ => none
  | p + 1, d =>
    match imem[p]? with
    | none => bwdScan imem p d
    | some c => if depthAfterBwd c d = 0 then some p else bwdScan imem p (depthAfterBwd c d)

/-- `BwdStop(i)`: the index of the matching `JZ`, or `none` for the spec's underflow. -/
def bwdStop (imem : List Byte) (i : Nat) : Option Nat := bwdScan imem i 1

/-- `bal` over a run of symbols: the number of `JZ` less the number of `JNZ` (R115's closed forms). -/
def bal : List Byte → Int
  | [] => 0
  | c :: rest => (if c = encode .jz then 1 else if c = encode .jnz then -1 else 0) + bal rest

/-- `bal(a, b)` of R115: over `IMEM[a .. b]`, both ends included. -/
def balRange (imem : List Byte) (a b : Nat) : Int := bal ((imem.take (b + 1)).drop a)

/-! Widths and codes (00_scope.md R5, 10_state.md R18). -/

/-- `PTRW`: the smallest `w` with `2^w ≥ TAPE_LEN` (R5). -/
def ptrWidth (c : Config) : Nat := if c.tapeLen ≤ 1 then 0 else (c.tapeLen - 1).log2 + 1

/-- `PCW`: the smallest `w` with `2^w > PROG_CAP + 1`; `none` where `PROG_CAP` is unbounded and `PC` is a natural
number (R5, D9). -/
def pcWidth (c : Config) : Option Nat := c.progCap.map (fun cap => (cap + 1).log2 + 1)

/-- The binary encoding of `RUN_STATE`: 0, 1, 2, and 3 never occurs (R18, D12). -/
def RunState.code : RunState → BitVec 2
  | .idle => 0#2
  | .running => 1#2
  | .paused => 2#2

end Sys2Proof.Machine
end

