-- ==== Sys2Proof/Machine/Operands.lean ====
section
/-! DEFINITION. The implied operands of the instructions (30_encoding.md R64): the current cell, reached by the one
data addressing mode, indirect through `PTR` (20_memory.md R55), and the two streams (44_io.md). -/

namespace Sys2Proof.Machine

/-- The current cell `TAPE[PTR]`. -/
def currentCell (s : State) : Byte := s.tape.read s.ptr

/-- `o`, where `PTR` is an index of the tape; R42 says that it always is. -/
def ifCellExists (s : State) (o : Host.Outcome State Fault Refusal) : Host.Outcome State Fault Refusal :=
  if s.ptr < s.config.tapeLen then o else .fault .cellOutOfRange

/-- `TAPE[PTR] <- v`. -/
def storeCurrentCell (s : State) (v : Byte) : State := s.withTape (s.tape.write s.ptr v)

/-- The byte a read delivers: the one at the input cursor, or 0 at the end of input (R111). -/
def nextInput (s : State) : Byte := (s.inq[s.inPos]?).getD 0#8

/-- The input cursor after a read: one further where the queue is non-empty, else unchanged (R111). -/
def inPosAfterRead (s : State) : Nat := if s.inPos < s.inq.length then s.inPos + 1 else s.inPos

/-- The output buffer holds less than `OUT_CAP` bytes (R110, D3). -/
def outputHasRoom (s : State) : Bool := withinCap s.config.outCap (s.out.length + 1)

/-- `OUT <- OUT ++ [v]`. -/
def appendOutput (s : State) (v : Byte) : State := s.withOut (s.out ++ [v])

end Sys2Proof.Machine
end

