-- ==== Sys2Proof/Machine/Flags.lean ====
section
/-! DEFINITION. The increment/decrement unit and the test of the conditional jumps. The machine has no flags: the
carry or borrow is dropped and a jump tests the current cell directly (10_state.md R21, 43_cell_arith.md R107). -/

namespace Sys2Proof.Machine

/-- `(v + 1) mod 256` (R105). -/
def incByte (v : Byte) : Byte := v + 1#8

/-- `(v − 1 + 256) mod 256` (R106). -/
def decByte (v : Byte) : Byte := v - 1#8

/-- The zero test of `JZ` and `JNZ` (R116, R119). -/
def isZeroByte (v : Byte) : Bool := v == 0#8

end Sys2Proof.Machine
end

