-- ==== Sys2Proof/Machine/CellArith.lean ====
section
/-! DEFINITION. `INC` and `DEC` (43_cell_arith.md). -/

namespace Sys2Proof.Machine

/-- `INC`: `TAPE[PTR] <- (TAPE[PTR] + 1) mod 256`, and the advance (R105, R93). -/
def execInc (s : State) : Host.Outcome State Fault Refusal :=
  ifCellExists s (.next (advance (storeCurrentCell s (incByte (currentCell s)))))

/-- `DEC`: `TAPE[PTR] <- (TAPE[PTR] − 1 + 256) mod 256`, and the advance (R106, R93). -/
def execDec (s : State) : Host.Outcome State Fault Refusal :=
  ifCellExists s (.next (advance (storeCurrentCell s (decByte (currentCell s)))))

end Sys2Proof.Machine
end

