-- ==== Sys2Proof/Machine/InputOutput.lean ====
section
/-! DEFINITION. `OUT` and `IN` (44_io.md). -/

namespace Sys2Proof.Machine

/-- `OUT`: `OUT <- OUT ++ [TAPE[PTR]]`, and the advance; stuck where a finite `OUT_CAP` is reached (R110, D3, R93). -/
def execOut (s : State) : Host.Outcome State Fault Refusal :=
  ifCellExists s
    (if outputHasRoom s then .next (advance (appendOutput s (currentCell s))) else .fault .outputFull)

/-- `IN`: the next input byte, or 0 at the end of input, into the current cell, and the advance (R111, R93). -/
def execIn (s : State) : Host.Outcome State Fault Refusal :=
  ifCellExists s (.next (advance ((storeCurrentCell s (nextInput s)).withInPos (inPosAfterRead s))))

end Sys2Proof.Machine
end

