-- ==== Sys2Proof/Machine/Jumps.lean ====
section
/-! DEFINITION. `JZ` and `JNZ` (45_jumps.md). -/

namespace Sys2Proof.Machine

/-- `JZ`: on a zero cell `PC <- FwdStop(PC)`; then the advance in every case, so an unmatched jump leaves
`PC = PLEN + 1` (R116 to R118, R93, C1). -/
def execJz (s : State) : Host.Outcome State Fault Refusal :=
  ifCellExists s
    (.next (if isZeroByte (currentCell s) then advance (s.withPc (fwdStop s.imem s.pc)) else advance s))

/-- `PC` after a taken `JNZ`: the instruction after the matching `JZ`, or `PLEN`, with no advance, where the backward
scan runs off the start (R119, R120; D8, the spec's own choice: log entry 7). -/
def pcAfterJnz (s : State) : Nat :=
  match bwdStop s.imem s.pc with
  | some j => j + 1
  | none => s.plen

/-- `JNZ` (R119, R120, R93). -/
def execJnz (s : State) : Host.Outcome State Fault Refusal :=
  ifCellExists s
    (.next (if isZeroByte (currentCell s) then advance s else s.withPc (pcAfterJnz s)))

end Sys2Proof.Machine
end

