-- ==== Sys2Proof/Machine/PointerMoves.lean ====
section
/-! DEFINITION. `RIGHT` and `LEFT` (42_pointer_moves.md). -/

namespace Sys2Proof.Machine

/-- `(PTR + 1) mod TAPE_LEN` (R100). -/
def ptrAfterRight (s : State) : Nat := (s.ptr + 1) % s.config.tapeLen

/-- `(PTR − 1 + TAPE_LEN) mod TAPE_LEN` (R101), `TAPE_LEN` added first so that no intermediate value is negative. -/
def ptrAfterLeft (s : State) : Nat := (s.ptr + s.config.tapeLen - 1) % s.config.tapeLen

/-- `RIGHT`, and the advance (R100, R93). -/
def execRight (s : State) : Host.Outcome State Fault Refusal :=
  .next (advance (s.withPtr (ptrAfterRight s)))

/-- `LEFT`, and the advance (R101, R93). -/
def execLeft (s : State) : Host.Outcome State Fault Refusal :=
  .next (advance (s.withPtr (ptrAfterLeft s)))

end Sys2Proof.Machine
end

