-- ==== Sys2Proof/Machine/Step.lean ====
section
/-! DEFINITION. `STEP` (41_step_cycle.md R95): the halt test, the fetch, the dispatch; each meaning makes the advance
itself. The returned `continues` is `State.continues` of the state left. -/

namespace Sys2Proof.Machine

/-- One `STEP`. -/
def step (s : State) : Host.Outcome State Fault Refusal :=
  if s.halted then .next (haltedNoOp s)
  else
    match fetch s with
    | .ok i => exec i s
    | .error r => .refused r

/-- `s` with the table's word stored where the next `STEP` fetches; it stands for a `LOAD` from outside
(log entry 4). -/
def State.withFetchWord (s : State) (nbits w : Nat) : State :=
  placeSymbol s (BitVec.ofNat 8 (w % 2 ^ nbits))

end Sys2Proof.Machine
end

