-- ==== Sys2Proof/Machine/Lifecycle.lean ====
section
/-! DEFINITION. The host operations `RESET` (70_reset_and_hazards.md R155) and `LOAD`, with the program loader
(40_load_and_loader.md R80 to R86). -/

namespace Sys2Proof.Machine

/-- `RESET` (R155, R156): `IMEM`, `PLEN`, `SRCMAP`, `INQ`, `STEP_DELAY` and `STEPS_PER_BATCH` keep their values, and
the input cursor moves only where `RESET_REWINDS_INPUT` says so. -/
def resetOp (s : State) : State :=
  { s with
    tape := []
    ptr := 0
    pc := 0
    out := []
    pending := false
    runState := .idle
    inPos := if s.config.resetRewindsInput then 0 else s.inPos }

/-- The symbol of a source character: its 8-bit code where it is one of the eight glyphs; no character above 255 is
one, and every other character is skipped (R81, R68). -/
def symbolOfChar (ch : Nat) : Option Byte :=
  if ch < 256 then
    if inAlphabet (BitVec.ofNat 8 ch) then some (BitVec.ofNat 8 ch) else none
  else none

/-- `Parse`'s loop over the characters from offset `k` on (R81). -/
def parseFrom : Nat → List Nat → List Byte × List Nat
  | _, [] => ([], [])
  | k, ch :: rest =>
    match symbolOfChar ch with
    | some c => (c :: (parseFrom (k + 1) rest).1, k :: (parseFrom (k + 1) rest).2)
    | none => parseFrom (k + 1) rest

/-- `Parse(src)`: the instruction sequence and the source index map, offsets counted in characters from 0
(R81, D5). -/
def parse (src : List Nat) : List Byte × List Nat := parseFrom 0 src

/-- `BYTE_OF_CHAR`: the identity up to 255, the implementation's own byte above, by default `c mod 256`
(R5, R82, D6). -/
def byteOfChar (cfg : Config) (ch : Nat) : Byte :=
  if ch ≤ 255 then BitVec.ofNat 8 ch
  else
    match cfg.wideBytes.lookup ch with
    | some b => b
    | none => BitVec.ofNat 8 (ch % 256)

/-- `ConvertInput(inp)`: one byte per character, in order, and no terminator (R82). -/
def convertInput (cfg : Config) (inp : List Nat) : List Byte := inp.map (byteOfChar cfg)

/-- What an accepted `LOAD(src, inp)` does (R80): the new program and input, the effects of `RESET`, and the cursor at
0 whatever `RESET_REWINDS_INPUT` is. -/
def loaded (src inp : List Nat) (s : State) : State :=
  { resetOp s with
    imem := (parse src).1
    srcMap := (parse src).2
    inq := convertInput s.config inp
    inPos := 0 }

/-- `LOAD(src, inp)`. No text is an error (R83); a text that is not made of characters, or that exceeds a finite
capacity, is outside the machine's definition and refused. -/
def loadOp (src inp : List Nat) (s : State) : Host.Outcome State Fault Refusal :=
  if textWf s.config src && textWf s.config inp then
    if withinCap s.config.srcCap src.length then
      if withinCap s.config.progCap (parse src).1.length then
        if withinCap s.config.inCap inp.length then .next (loaded src inp s)
        else .refused .inputTooLong
      else .refused .programTooLong
    else .refused .sourceTooLong
  else .refused .characterOutOfRange

end Sys2Proof.Machine
end

