-- ==== Sys2Proof/Machine/HostInterface.lean ====
section
/-! DEFINITION. The host's operations, accessors and settings (46_host_interface.md R125 to R135, 41_step_cycle.md R96,
R97). Each is one atomic transition (20_memory.md R48); the host issues them one at a time (R49, R54). -/

namespace Sys2Proof.Machine

/-- The two values a host can mark (R133): `Idle` is written by the engine only. -/
inductive Mark where
  | running
  | paused
  deriving DecidableEq, Repr

/-- R125's complete list of host operations. -/
inductive HostOp where
  | load (src inp : List Nat)
  | reset
  | step
  | batch (n : Nat)
  | getPtr
  | getCell (i : Nat)
  | getPc
  | getPlen
  | getOutput
  | getSrcOffset
  | setDelay (v : Nat)
  | setBatch (v : Nat)
  | getDelay
  | getBatch
  | mark (m : Mark)
  | getRunState
  | schedule
  | cancel
  deriving DecidableEq, Repr

/-- The result of a host operation. -/
inductive HostValue where
  /-- No result. -/
  | unit
  /-- `continues` of `STEP` or `BATCH`. -/
  | continues (b : Bool)
  /-- A number: an index, a length, a setting. -/
  | nat (n : Nat)
  /-- A cell. -/
  | byte (b : Byte)
  /-- The output buffer. -/
  | bytes (bs : List Byte)
  /-- A source offset, `none` when halted. -/
  | offset (o : Option Nat)
  /-- The run state. -/
  | runState (r : RunState)
  deriving DecidableEq, Repr

/-- What a host operation answers. -/
abbrev HostOutcome := Host.Outcome (State × HostValue) Fault Refusal

/-- A state outcome with the result the operation computes from the state it leaves. -/
def withResult (v : State → HostValue) : Host.Outcome State Fault Refusal → HostOutcome
  | .next s => .next (s, v s)
  | .fault r => .fault r
  | .refused r => .refused r

/-- An accessor: the value, and no state changed (R126). -/
def answer (s : State) (v : HostValue) : HostOutcome := .next (s, v)

/-- `BATCH(n)`: exactly `n` steps, no early stop at a halt (R96, D15). -/
def batch : Nat → State → Host.Outcome State Fault Refusal
  | 0, s => .next s
  | n + 1, s =>
    match step s with
    | .next s' => batch n s'
    | .fault r => .fault r
    | .refused r => .refused r

/-- The host's loop "repeat STEP until it returns false", under fuel (R97): `none` where the fuel is spent first. -/
def runToHalt : Nat → State → Option (Host.Outcome State Fault Refusal)
  | 0, _ => none
  | fuel + 1, s =>
    match step s with
    | .next s' => if s'.continues then runToHalt fuel s' else some (.next s')
    | .fault r => some (.fault r)
    | .refused r => some (.refused r)

/-- `GET_SRC_OFFSET`: `SRCMAP[PC]` if `PC < PLEN`, else none (R126). -/
def srcOffset (s : State) : Option Nat := if s.pc < s.plen then s.srcMap[s.pc]? else none

/-- The text view of the output: byte `b` is the character with code point `b` (R113, D17). -/
def outputText (s : State) : List Nat := s.out.map BitVec.toNat

/-- `GET_CELL(i)`, for `i < TAPE_LEN` only (R126, R127, D16). -/
def getCell (i : Nat) (s : State) : HostOutcome :=
  if i < s.config.tapeLen then answer s (.byte (s.tape.read i)) else .refused .cellIndexOutsideTape

/-- `SET_DELAY(v)`, for `v < 2^DELAYW` (R131, D14). -/
def setDelay (v : Nat) (s : State) : HostOutcome :=
  if v < 2 ^ s.config.delayW then .next (s.withStepDelay v, .unit) else .refused .settingOutOfRange

/-- `SET_BATCH(v)`, for `v < 2^BATCHW` (R131, D14). -/
def setBatch (v : Nat) (s : State) : HostOutcome :=
  if v < 2 ^ s.config.batchW then .next (s.withStepsPerBatch v, .unit) else .refused .settingOutOfRange

/-- The run state a mark writes (R133). -/
def Mark.runState : Mark → RunState
  | .running => .running
  | .paused => .paused

/-- One host operation (R125). -/
def hostOp (op : HostOp) (s : State) : HostOutcome :=
  match op with
  | .load src inp => withResult (fun _ => .unit) (loadOp src inp s)
  | .reset => .next (resetOp s, .unit)
  | .step => withResult (fun t => .continues t.continues) (step s)
  | .batch n => withResult (fun t => .continues t.continues) (batch n s)
  | .getPtr => answer s (.nat s.ptr)
  | .getCell i => getCell i s
  | .getPc => answer s (.nat s.pc)
  | .getPlen => answer s (.nat s.plen)
  | .getOutput => answer s (.bytes s.out)
  | .getSrcOffset => answer s (.offset (srcOffset s))
  | .setDelay v => setDelay v s
  | .setBatch v => setBatch v s
  | .getDelay => answer s (.nat s.stepDelay)
  | .getBatch => answer s (.nat s.stepsPerBatch)
  | .mark m => .next (s.withRunState m.runState, .unit)
  | .getRunState => answer s (.runState s.runState)
  | .schedule => .next (s.withPending true, .unit)
  | .cancel => .next (s.withPending false, .unit)

end Sys2Proof.Machine
end

