-- ==== Sys2Proof/Safety.lean ====
section
/-! DEFINITION. What counts as a safe run, in the terms the claims use: the invariant of 10_state.md R24, the states a
host can reach, malformed programs (00_scope.md R9), and what a run reads from and writes to the streams. -/

namespace Sys2Proof.Machine

/-- The invariant of R24. Its items 2 and 9 (a cell below 256, a run state of three) hold by the fields' types; the
canonical form of the tape and the widths of the two settings (R20) stand beside them. -/
structure State.Inv (s : State) : Prop where
  /-- The parameters meet R5's constraints. -/
  config_wf : s.config.wf = true
  /-- Item 1. -/
  ptr_lt : s.ptr < s.config.tapeLen
  /-- The tape is in canonical form. -/
  tape_wf : s.tape.wf = true
  /-- No cell outside the tape is listed. -/
  tape_within : s.tape.within s.config.tapeLen = true
  /-- Item 3, `SRCMAP` as long as `IMEM`. -/
  srcMap_length : s.srcMap.length = s.plen
  /-- Item 3, `PLEN ≤ PROG_CAP`. -/
  progCap_ok : withinCap s.config.progCap s.plen = true
  /-- Item 4. -/
  symbols_ok : programInAlphabet s.imem = true
  /-- Item 5. -/
  srcMap_rising : s.srcMap.Pairwise (· < ·)
  /-- Item 6, the cursor. -/
  inPos_le : s.inPos ≤ s.inq.length
  /-- Item 6, the queue. -/
  inCap_ok : withinCap s.config.inCap s.inq.length = true
  /-- Item 7, the bound. -/
  pc_le : s.pc ≤ s.plen + 1
  /-- Item 7: `PC = PLEN + 1` only where a forward scan can run off the end. -/
  pc_past : s.pc = s.plen + 1 → ∃ i, s.imem[i]? = some (encode .jz) ∧ fwdStop s.imem i = s.plen
  /-- Item 8. -/
  outCap_ok : withinCap s.config.outCap s.out.length = true
  /-- `STEP_DELAY` has `DELAYW` bits. -/
  stepDelay_lt : s.stepDelay < 2 ^ s.config.delayW
  /-- `STEPS_PER_BATCH` has `BATCHW` bits. -/
  stepsPerBatch_lt : s.stepsPerBatch < 2 ^ s.config.batchW

/-- The power-on state with any parameters and any value of the two settings that power-on leaves unspecified
(R25, R157, U13). `State.reset` is one of these. -/
def poweredOn (c : Config) (delay perBatch : Nat) : State :=
  { State.reset with config := c, stepDelay := delay, stepsPerBatch := perBatch }

/-- The states a host can reach: power-on, then any sequence of operations, one at a time (R49, R159). -/
inductive Reachable : State → Prop where
  | powerOn (c : Config) (delay perBatch : Nat) (wf : c.wf = true) (hd : delay < 2 ^ c.delayW)
      (hb : perBatch < 2 ^ c.batchW) : Reachable (poweredOn c delay perBatch)
  | op (s t : State) (o : HostOp) (v : HostValue) (hs : Reachable s) (h : hostOp o s = .next (t, v)) : Reachable t

/-- The program is malformed: some bracket has no matching bracket (R9). Such a program is valid (R69). -/
def malformed (imem : List Byte) : Prop :=
  ∃ i, (imem[i]? = some (encode .jz) ∧ fwdStop imem i = imem.length)
    ∨ (imem[i]? = some (encode .jnz) ∧ bwdStop imem i = none)

/-- The instruction sequence `is` performed one after the other, each by its own rule, whatever `IMEM` holds. -/
def execAll : List Instr → State → Host.Outcome State Fault Refusal
  | [], s => .next s
  | i :: rest, s =>
    match exec i s with
    | .next t => execAll rest t
    | .fault r => .fault r
    | .refused r => .refused r

/-- The bytes that the `IN` instructions among the next `n` steps leave in the current cell, in order (R112). -/
def bytesDelivered : Nat → State → List Byte
  | 0, _ => []
  | n + 1, s =>
    match step s with
    | .next t =>
      (if s.imem[s.pc]? = some (encode .inp) then [currentCell t] else []) ++ bytesDelivered n t
    | .fault _ => []
    | .refused _ => []

/-- The current-cell values at the `OUT` instructions among the next `n` steps, in order (R112). -/
def bytesWritten : Nat → State → List Byte
  | 0, _ => []
  | n + 1, s =>
    match step s with
    | .next t =>
      (if s.imem[s.pc]? = some (encode .out) then [currentCell s] else []) ++ bytesWritten n t
    | .fault _ => []
    | .refused _ => []

end Sys2Proof.Machine
end

