-- ==== Sys2Proof/Certificates/Slice0/Obligations.lean ====
section
/-! DEFINITION. The statements for the provers. Each docstring names the rule of spec/ the statement formalises; one
that rests on the spec's own decision (92_eei_decisions.md D<n>) or on the model's choice says so and names the entry
of notes/assumptions. -/

open Sys2Proof Sys2Proof.Machine

/-! ### Encoding -/

/-- 30_encoding.md R62's table, read by the decoder. The numbers are the spec's general knowledge (G1, G2; log
entry 8). -/
def Obligations.EightCodesDecodeToTheirInstructions : Prop :=
  decodeTableWord 8 0x3E = some .right ∧ decodeTableWord 8 0x3C = some .left ∧
  decodeTableWord 8 0x2B = some .inc ∧ decodeTableWord 8 0x2D = some .dec ∧
  decodeTableWord 8 0x2E = some .out ∧ decodeTableWord 8 0x2C = some .inp ∧
  decodeTableWord 8 0x5B = some .jz ∧ decodeTableWord 8 0x5D = some .jnz

/-- 30_encoding.md R66: a code that is none of the eight is refused under its own value, and of the 256 values and of
words of another width nothing but the eight is an instruction. The refusal is decision D10 (log entry 6). -/
def Obligations.UnusedCodesAreRefused : Prop :=
  (∀ c : Byte, (∀ i, c ≠ encode i) → decodeSymbol c = .error (.notInAlphabet c)) ∧
  (∀ n, n < 256 → (decodeTableWord 8 n = none ↔ n ∉ [0x3E, 0x3C, 0x2B, 0x2D, 0x2E, 0x2C, 0x5B, 0x5D])) ∧
  (∀ nbits n, nbits ≠ 8 ∨ 256 ≤ n → decodeTableWord nbits n = none)

/-- 30_encoding.md R60, R62, R65: decoding what was encoded gives it back, for one instruction with any symbols after
it and for a whole program; nothing but its encoding decodes to a program; and R67's check is passed by exactly the
sequences that decode. -/
def Obligations.ProgramsDecodeAndEncodeAgree : Prop :=
  (∀ (i : Instr) (rest : List Byte), decode (encode i :: rest) = .ok (i, rest)) ∧
  (∀ p : List Instr, decodeProgram (encodeProgram p) = .ok p) ∧
  (∀ (b : List Byte) (p : List Instr), decodeProgram b = .ok p → b = encodeProgram p) ∧
  (∀ b : List Byte, programInAlphabet b = true ↔ ∃ p, decodeProgram b = .ok p)

/-! ### The loader -/

/-- 40_load_and_loader.md R85: the sequence holds exactly the alphabet's characters of the source, in order, and the
source index map is aligned with it, strictly increasing, and misses none of them. -/
def Obligations.ParseKeepsExactlyTheAlphabet : Prop :=
  ∀ src : List Nat,
    (parse src).2.length = (parse src).1.length ∧
    (∀ (i o : Nat) (c : Byte), (parse src).1[i]? = some c → (parse src).2[i]? = some o → src[o]? = some c.toNat) ∧
    (∀ c ∈ (parse src).1, ∃ i : Instr, c = encode i) ∧
    (parse src).2.Pairwise (· < ·) ∧
    (∀ (k : Nat) (i : Instr), src[k]? = some (encode i).toNat → k ∈ (parse src).2)

/-- 30_encoding.md R68: whatever comment stands between the glyphs, the loaded program decodes to the instructions of
the glyphs in their order; every character sequence is accepted. -/
def Obligations.CommentsAreInert : Prop :=
  ∀ (p : List Instr) (src : List Nat),
    src.filter (fun ch => [62, 60, 43, 45, 46, 44, 91, 93].contains ch) = p.map (fun i => (encode i).toNat) →
    decodeProgram (parse src).1 = .ok p ∧ (parse src).2.length = p.length

/-- 40_load_and_loader.md R82: one byte per character, in order, the identity up to 255; with no byte fixed by the
implementation the default `c mod 256` (decision D6; log entry 11). -/
def Obligations.ConvertInputGivesOneByteEach : Prop :=
  ∀ (cfg : Config) (inp : List Nat),
    (convertInput cfg inp).length = inp.length ∧
    (∀ (k : Nat) (ch : Nat), inp[k]? = some ch → (convertInput cfg inp)[k]? = some (byteOfChar cfg ch)) ∧
    (∀ ch : Nat, ch ≤ 255 → (byteOfChar cfg ch).toNat = ch) ∧
    (cfg.wideBytes = [] → ∀ ch : Nat, (byteOfChar cfg ch).toNat = ch % 256)

/-- 00_scope.md R5: the parameter `BYTE_OF_CHAR` takes in every total function on the character codes that is the
identity up to 255. That it is held as a list of bytes is the model's choice (log entry 11). -/
def Obligations.EveryByteOfCharIsCovered : Prop :=
  ∀ (c : Config) (f : Nat → Byte), c.wf = true → (∀ ch, ch ≤ 255 → (f ch).toNat = ch) →
    ∃ w : List (Nat × Byte), ({ c with wideBytes := w } : Config).wf = true ∧
      ∀ ch, ch < 2 ^ c.charW → byteOfChar { c with wideBytes := w } ch = f ch

/-- 40_load_and_loader.md R80: an accepted `LOAD` in full; the settings keep their values, the cursor is 0 whatever
`RESET_REWINDS_INPUT` is, and every cell reads 0. -/
def Obligations.LoadReplacesProgramAndResets : Prop :=
  ∀ (src inp : List Nat) (s : State),
    (∀ ch ∈ src, ch < 2 ^ s.config.charW) → (∀ ch ∈ inp, ch < 2 ^ s.config.charW) →
    (∀ c, s.config.srcCap = some c → src.length ≤ c) →
    (∀ c, s.config.progCap = some c → (parse src).1.length ≤ c) →
    (∀ c, s.config.inCap = some c → inp.length ≤ c) →
    ∃ t, hostOp (.load src inp) s = .next (t, .unit) ∧
      t = { config := s.config, imem := (parse src).1, srcMap := (parse src).2, inq := convertInput s.config inp,
            inPos := 0, tape := t.tape, ptr := 0, pc := 0, out := [], runState := .idle, pending := false,
            stepDelay := s.stepDelay, stepsPerBatch := s.stepsPerBatch } ∧
      (∀ a, t.tape.read a = 0#8) ∧ t.plen = (parse src).1.length

/-- 40_load_and_loader.md R83 (decision D3; log entry 12): of texts made of characters, those over a finite capacity
are refused and no other; no text is an error. -/
def Obligations.LoadRefusedExactlyWhenOverCapacity : Prop :=
  ∀ (src inp : List Nat) (s : State),
    (∀ ch ∈ src, ch < 2 ^ s.config.charW) → (∀ ch ∈ inp, ch < 2 ^ s.config.charW) →
    ((∃ r, loadOp src inp s = .refused r) ↔
      (∃ c, s.config.srcCap = some c ∧ c < src.length) ∨
      (∃ c, s.config.progCap = some c ∧ c < (parse src).1.length) ∨
      (∃ c, s.config.inCap = some c ∧ c < inp.length)) ∧
    (∀ f, loadOp src inp s ≠ .fault f)

/-- 40_load_and_loader.md R84: a `LOAD` leaves no trace of the run before it, whatever state it is issued in. -/
def Obligations.LoadForgetsTheEarlierRun : Prop :=
  ∀ (src inp : List Nat) (s u : State),
    s.config = u.config → s.stepDelay = u.stepDelay → s.stepsPerBatch = u.stepsPerBatch →
    loadOp src inp s = loadOp src inp u

/-! ### Reset and power-on -/

/-- 70_reset_and_hazards.md R155: `RESET` in full, for either value of its parameter; it cannot fail, and twice is the
same as once. -/
def Obligations.ResetRestoresTheInitialState : Prop :=
  ∀ s : State, ∃ t, hostOp .reset s = .next (t, .unit) ∧
    t = { s with tape := t.tape, ptr := 0, pc := 0, out := [], pending := false, runState := .idle,
                 inPos := if s.config.resetRewindsInput then 0 else s.inPos } ∧
    (∀ a, t.tape.read a = 0#8) ∧
    hostOp .reset t = .next (t, .unit)

/-- 70_reset_and_hazards.md R157 (decision D11; log entries 2 and 3): power-on is the state after loading nothing, but
for the two settings; it is halted and a `STEP` there changes nothing. -/
def Obligations.PowerOnIsAnEmptyLoad : Prop :=
  (∀ s : State, s.config = Config.standard →
    loadOp [] [] s = .next { State.reset with stepDelay := s.stepDelay, stepsPerBatch := s.stepsPerBatch }) ∧
  State.reset.halted ∧
  hostOp .step State.reset = .next (State.reset, .continues false)

/-! ### The step -/

/-- 41_step_cycle.md R92: below `PLEN` a `STEP` performs the instruction whose code stands at `PC`, exactly one, and in
a program of the alphabet there always is one. -/
def Obligations.StepRunsTheFetchedInstruction : Prop :=
  (∀ (s : State) (c : Byte) (i : Instr), programInAlphabet s.imem = true → s.imem[s.pc]? = some c →
    decodeSymbol c = .ok i → step s = exec i s) ∧
  (∀ s : State, programInAlphabet s.imem = true → s.pc < s.plen →
    ∃ i, s.imem[s.pc]? = some (encode i) ∧ step s = exec i s)

/-- 41_step_cycle.md R91: a `STEP` of a halted machine writes `RUN_STATE` and nothing else, answers false, and any
number of further ones change nothing. -/
def Obligations.StepWhenHaltedOnlySetsIdle : Prop :=
  ∀ s : State, s.plen ≤ s.pc →
    hostOp .step s = .next ({ s with runState := .idle }, .continues false) ∧
    ∀ n : Nat, batch (n + 1) s = .next { s with runState := .idle }

/-- 41_step_cycle.md R94: the result of a `STEP` is whether `PC` is below `PLEN` after the advance, so the step that
leaves the program already answers false, and the next one, which finds the machine halted, too. -/
def Obligations.StepReportsWhetherItContinues : Prop :=
  ∀ s t : State, step s = .next t →
    hostOp .step s = .next (t, .continues (decide (t.pc < t.imem.length))) ∧
    (t.imem.length ≤ t.pc →
      hostOp .step s = .next (t, .continues false) ∧
      hostOp .step t = .next ({ t with runState := .idle }, .continues false))

/-- 30_encoding.md R67 (decision D10; log entry 6): a running machine refuses a program that holds a code outside the
eight; it gives the code no meaning. -/
def Obligations.ForeignSymbolsAreRefused : Prop :=
  ∀ s : State, s.pc < s.plen → programInAlphabet s.imem = false → step s = .refused .symbolNotInAlphabet

/-- The model's own way to place a word (log entry 4): the very next step runs the word's instruction, in every state
whose program is of the alphabet. -/
def Obligations.FetchWordIsRunNext : Prop :=
  ∀ (i : Instr) (s : State), programInAlphabet s.imem = true →
    step (s.withFetchWord 8 (encode i).toNat) = exec i (s.withFetchWord 8 (encode i).toNat) ∧
    (s.pc < s.plen → s.withFetchWord 8 (encode i).toNat = { s with imem := s.imem.set s.pc (encode i) })

/-- 41_step_cycle.md R93: where `PC` is after every instruction. The unmatched `JNZ` is decision D8 (log entry 7). -/
def Obligations.PcAfterEveryInstruction : Prop :=
  ∀ (i : Instr) (s t : State), exec i s = .next t →
    t.pc = match i with
      | .jz => if s.tape.read s.ptr = 0#8 then fwdStop s.imem s.pc + 1 else s.pc + 1
      | .jnz =>
        if s.tape.read s.ptr = 0#8 then s.pc + 1
        else match bwdStop s.imem s.pc with
          | some j => j + 1
          | none => s.imem.length
      | _ => s.pc + 1

/-! ### The eight instructions -/

/-- 42_pointer_moves.md R100: `RIGHT` in full, with its corner cases and its code; nothing else changes. -/
def Obligations.RightMovesThePointer : Prop :=
  decodeTableWord 8 0x3E = some .right ∧
  ∀ s : State,
    exec .right s = .next { s with ptr := (s.ptr + 1) % s.config.tapeLen, pc := s.pc + 1 } ∧
    (s.ptr + 1 = s.config.tapeLen → exec .right s = .next { s with ptr := 0, pc := s.pc + 1 }) ∧
    (s.config.tapeLen = 1 → exec .right s = .next { s with ptr := 0, pc := s.pc + 1 })

/-- 42_pointer_moves.md R101: `LEFT` in full, over the integers, with its corner cases and its code; nothing else
changes. -/
def Obligations.LeftMovesThePointer : Prop :=
  decodeTableWord 8 0x3C = some .left ∧
  ∀ s : State, 1 ≤ s.config.tapeLen →
    exec .left s =
      .next { s with ptr := (((s.ptr : Int) - 1 + s.config.tapeLen) % s.config.tapeLen).toNat, pc := s.pc + 1 } ∧
    exec .left s = .next { s with ptr := (((s.ptr : Int) - 1) % s.config.tapeLen).toNat, pc := s.pc + 1 } ∧
    (s.ptr = 0 → exec .left s = .next { s with ptr := s.config.tapeLen - 1, pc := s.pc + 1 }) ∧
    (s.config.tapeLen = 1 → exec .left s = .next { s with ptr := 0, pc := s.pc + 1 })

/-- 43_cell_arith.md R105: `INC` in full, on a tape in canonical form; every other cell and every other element is
unchanged. -/
def Obligations.IncAddsOneModulo256 : Prop :=
  decodeTableWord 8 0x2B = some .inc ∧
  ∀ s : State, s.ptr < s.config.tapeLen → s.tape.wf = true →
    ∃ t, exec .inc s = .next t ∧ (t.tape.read s.ptr).toNat = ((s.tape.read s.ptr).toNat + 1) % 256 ∧
      (∀ a, a ≠ s.ptr → t.tape.read a = s.tape.read a) ∧ t = { s with tape := t.tape, pc := s.pc + 1 }

/-- 43_cell_arith.md R106: `DEC` in full, on a tape in canonical form; every other cell and every other element is
unchanged. -/
def Obligations.DecSubtractsOneModulo256 : Prop :=
  decodeTableWord 8 0x2D = some .dec ∧
  ∀ s : State, s.ptr < s.config.tapeLen → s.tape.wf = true →
    ∃ t, exec .dec s = .next t ∧
      ((t.tape.read s.ptr).toNat : Int) = ((s.tape.read s.ptr).toNat - 1 + 256) % 256 ∧
      (∀ a, a ≠ s.ptr → t.tape.read a = s.tape.read a) ∧ t = { s with tape := t.tape, pc := s.pc + 1 }

/-- 44_io.md, the `OUT` instruction while the buffer has room: the current cell's byte is appended, whatever it is, and
nothing else changes but `PC`. That a finite `OUT_CAP` bounds the buffer is decision D3 (log entry 10). -/
def Obligations.OutAppendsTheCurrentCell : Prop :=
  ∀ s : State, s.ptr < s.config.tapeLen → (∀ c, s.config.outCap = some c → s.out.length < c) →
    exec .out s = .next { s with out := s.out ++ [s.tape.read s.ptr], pc := s.pc + 1 }

/-- 44_io.md, the `OUT` instruction at a finite `OUT_CAP`: the machine is stuck (decision D3; log entry 10). -/
def Obligations.OutIsStuckAtItsCapacity : Prop :=
  ∀ (s : State) (c : Nat), s.ptr < s.config.tapeLen → s.config.outCap = some c → c ≤ s.out.length →
    exec .out s = .fault .outputFull

/-- 44_io.md R111: `IN` in full, on a tape in canonical form, with input and at its end, where the cell becomes 0 and
the cursor stays; every other element is unchanged. -/
def Obligations.InReadsTheNextByteOrZero : Prop :=
  decodeTableWord 8 0x2C = some .inp ∧
  ∀ s : State, s.ptr < s.config.tapeLen → s.tape.wf = true →
    ∃ t, exec .inp s = .next t ∧
      (∀ b, s.inq[s.inPos]? = some b → t.tape.read s.ptr = b ∧ t.inPos = s.inPos + 1) ∧
      (s.inq.length ≤ s.inPos → t.tape.read s.ptr = 0#8 ∧ t.inPos = s.inPos) ∧
      (∀ a, a ≠ s.ptr → t.tape.read a = s.tape.read a) ∧
      t = { s with tape := t.tape, inPos := t.inPos, pc := s.pc + 1 }

/-- 45_jumps.md R116: `JZ` in full: the scan on a zero cell, then the advance; nothing else changes. -/
def Obligations.JzJumpsOnAZeroCell : Prop :=
  decodeTableWord 8 0x5B = some .jz ∧
  ∀ s : State, s.ptr < s.config.tapeLen →
    exec .jz s = .next { s with pc := (if s.tape.read s.ptr = 0#8 then fwdStop s.imem s.pc else s.pc) + 1 }

/-- 45_jumps.md R117: `JZ` not taken, and `JZ` taken with a match: one `STEP` goes past the matching `JNZ`, which is
not executed, and answers whether instructions are left. -/
def Obligations.JzOrdinaryCases : Prop :=
  ∀ s : State, s.ptr < s.config.tapeLen → programInAlphabet s.imem = true →
    s.imem[s.pc]? = some (encode .jz) →
    (s.tape.read s.ptr ≠ 0#8 →
      hostOp .step s = .next ({ s with pc := s.pc + 1 }, .continues (decide (s.pc + 1 < s.imem.length)))) ∧
    (s.tape.read s.ptr = 0#8 → fwdStop s.imem s.pc < s.imem.length →
      s.imem[fwdStop s.imem s.pc]? = some (encode .jnz) ∧ s.pc < fwdStop s.imem s.pc ∧
      hostOp .step s = .next ({ s with pc := fwdStop s.imem s.pc + 1 },
        .continues (decide (fwdStop s.imem s.pc + 1 < s.imem.length))))

/-- 45_jumps.md R118: `JZ` taken with no match leaves `PC = PLEN + 1`, halted, with no error and nothing else changed;
not taken, it enters the body like any other. -/
def Obligations.JzUnmatchedHaltsPastTheEnd : Prop :=
  ∀ s : State, s.ptr < s.config.tapeLen → programInAlphabet s.imem = true →
    s.imem[s.pc]? = some (encode .jz) → fwdStop s.imem s.pc = s.imem.length →
    (s.tape.read s.ptr = 0#8 →
      hostOp .step s = .next ({ s with pc := s.imem.length + 1 }, .continues false) ∧
      ({ s with pc := s.imem.length + 1 } : State).halted) ∧
    (s.tape.read s.ptr ≠ 0#8 → step s = .next { s with pc := s.pc + 1 })

/-- 45_jumps.md, the three cases of `JNZ`: not taken, taken with a match, and taken with none, which sets `PC` to
`PLEN` with no advance (decision D8; log entry 7); nothing else changes. -/
def Obligations.JnzJumpsOnANonzeroCell : Prop :=
  ∀ s : State, s.ptr < s.config.tapeLen →
    (s.tape.read s.ptr = 0#8 → exec .jnz s = .next { s with pc := s.pc + 1 }) ∧
    (∀ j, s.tape.read s.ptr ≠ 0#8 → bwdStop s.imem s.pc = some j →
      s.imem[j]? = some (encode .jz) ∧ j < s.pc ∧ exec .jnz s = .next { s with pc := j + 1 }) ∧
    (s.tape.read s.ptr ≠ 0#8 → bwdStop s.imem s.pc = none → exec .jnz s = .next { s with pc := s.imem.length })

/-- 45_jumps.md, the unmatched `JNZ` (decision D8; log entry 7): the machine halts there, and every later `STEP` is the
halted no-op. -/
def Obligations.JnzUnmatchedHalts : Prop :=
  ∀ s : State, s.ptr < s.config.tapeLen → programInAlphabet s.imem = true →
    s.imem[s.pc]? = some (encode .jnz) → s.tape.read s.ptr ≠ 0#8 → bwdStop s.imem s.pc = none →
    hostOp .step s = .next ({ s with pc := s.imem.length }, .continues false) ∧
    ∀ n : Nat, batch (n + 2) s = .next { s with pc := s.imem.length, runState := .idle }

/-- The model's choice (log entry 9), in states the spec says cannot arise (20_memory.md R42): with `PTR` outside the
tape the six instructions that use the current cell stop, and the two moves do not. -/
def Obligations.PointerOutsideTheTapeStops : Prop :=
  ∀ s : State, s.config.tapeLen ≤ s.ptr →
    (∀ i ∈ [Instr.inc, .dec, .out, .inp, .jz, .jnz], exec i s = .fault .cellOutOfRange) ∧
    (∀ i ∈ [Instr.right, .left], ∃ t, exec i s = .next t)

/-! ### Laws of the instructions -/

/-- 42_pointer_moves.md R102, the spec's own inference: the moves undo each other, and `TAPE_LEN` of one kind come back
to the same cell. -/
def Obligations.PointerMovesAreInverse : Prop :=
  ∀ s : State, s.ptr < s.config.tapeLen →
    execAll [.right, .left] s = .next { s with pc := s.pc + 2 } ∧
    execAll [.left, .right] s = .next { s with pc := s.pc + 2 } ∧
    execAll (List.replicate s.config.tapeLen .right) s = .next { s with pc := s.pc + s.config.tapeLen } ∧
    execAll (List.replicate s.config.tapeLen .left) s = .next { s with pc := s.pc + s.config.tapeLen }

/-- 43_cell_arith.md R107: `INC` and `DEC` undo each other, 256 of one kind restore the cell, and `n` `INC`s add `n`
modulo 256; the tape comes back as the same data. -/
def Obligations.CellArithmeticLaws : Prop :=
  ∀ s : State, s.ptr < s.config.tapeLen → s.tape.wf = true →
    execAll [.inc, .dec] s = .next { s with pc := s.pc + 2 } ∧
    execAll [.dec, .inc] s = .next { s with pc := s.pc + 2 } ∧
    execAll (List.replicate 256 .inc) s = .next { s with pc := s.pc + 256 } ∧
    execAll (List.replicate 256 .dec) s = .next { s with pc := s.pc + 256 } ∧
    ∀ n : Nat, ∃ t, execAll (List.replicate n .inc) s = .next t ∧
      (t.tape.read s.ptr).toNat = ((s.tape.read s.ptr).toNat + n) % 256 ∧
      (∀ a, a ≠ s.ptr → t.tape.read a = s.tape.read a) ∧ t = { s with tape := t.tape, pc := s.pc + n }

/-- 45_jumps.md R115's closed form of the forward scan, the spec's own inference: the first `j` after `i` at which the
brackets balance to −1, or `PLEN`. -/
def Obligations.FwdStopIsTheFirstBalance : Prop :=
  ∀ (imem : List Byte) (i : Nat), i < imem.length →
    (∀ j, i < j → j < fwdStop imem i → balRange imem (i + 1) j ≠ -1) ∧
    (fwdStop imem i = imem.length ∨
      (i < fwdStop imem i ∧ fwdStop imem i < imem.length ∧ balRange imem (i + 1) (fwdStop imem i) = -1))

/-- 45_jumps.md R115's closed form of the backward scan, the spec's own inference: the last `j` before `i` from which
the brackets balance to +1, or underflow. -/
def Obligations.BwdStopIsTheLastBalance : Prop :=
  ∀ (imem : List Byte) (i : Nat), i < imem.length →
    (∀ j, bwdStop imem i = some j → j < i ∧ balRange imem j (i - 1) = 1 ∧
      ∀ k, j < k → k < i → balRange imem k (i - 1) ≠ 1) ∧
    (bwdStop imem i = none → ∀ k, k < i → balRange imem k (i - 1) ≠ 1)

/-- 45_jumps.md R121, the spec's own inference: matching is mutual, in both directions. -/
def Obligations.BracketsMatchMutually : Prop :=
  (∀ (imem : List Byte) (i : Nat), imem[i]? = some (encode .jz) → fwdStop imem i < imem.length →
    imem[fwdStop imem i]? = some (encode .jnz) ∧ bwdStop imem (fwdStop imem i) = some i) ∧
  (∀ (imem : List Byte) (i j : Nat), imem[j]? = some (encode .jnz) → bwdStop imem j = some i →
    imem[i]? = some (encode .jz) ∧ fwdStop imem i = j)

/-- 44_io.md R112, the spec's own inference: over any number of steps the `IN` instructions get the input bytes in
order from the cursor on, then zeros, and the cursor counts them up to the end. -/
def Obligations.InputArrivesInOrderThenZeros : Prop :=
  ∀ (n : Nat) (s t : State), s.tape.wf = true → s.inPos ≤ s.inq.length → batch n s = .next t →
    (∀ k, k < (bytesDelivered n s).length →
      (bytesDelivered n s)[k]? = some ((s.inq[s.inPos + k]?).getD 0#8)) ∧
    t.inPos = min (s.inPos + (bytesDelivered n s).length) s.inq.length ∧ t.inq = s.inq

/-- 44_io.md R112, the spec's own inference: over any number of steps the output buffer grows by the current-cell
values at the `OUT` instructions, in order, and no earlier byte changes. -/
def Obligations.OutputCollectsTheCellsWritten : Prop :=
  ∀ (n : Nat) (s t : State), batch n s = .next t → t.out = s.out ++ bytesWritten n s

/-! ### What a step can and cannot write -/

/-- 41_step_cycle.md, the elements `STEP` never writes, over any number of steps; and `RUN_STATE`, which it writes in
the halted branch only (decision D24; log entry 15). -/
def Obligations.StepsNeverWriteTheProgram : Prop :=
  (∀ (n : Nat) (s t : State), batch n s = .next t →
    t.config = s.config ∧ t.imem = s.imem ∧ t.srcMap = s.srcMap ∧ t.inq = s.inq ∧ t.pending = s.pending ∧
    t.stepDelay = s.stepDelay ∧ t.stepsPerBatch = s.stepsPerBatch) ∧
  (∀ s t : State, step s = .next t → t.runState = if s.plen ≤ s.pc then .idle else s.runState)

/-- 10_state.md R12, R13, R16, R17 with 90_conflicts.md C2: which instruction at `PC` a step must have found to change
`PTR`, a cell (which can only be the current one), the input cursor or the output buffer. -/
def Obligations.OnlyTheseInstructionsWrite : Prop :=
  ∀ s t : State, s.tape.wf = true → step s = .next t →
    (t.ptr ≠ s.ptr → s.imem[s.pc]? = some (encode .right) ∨ s.imem[s.pc]? = some (encode .left)) ∧
    (∀ a, t.tape.read a ≠ s.tape.read a → a = s.ptr ∧
      (s.imem[s.pc]? = some (encode .inc) ∨ s.imem[s.pc]? = some (encode .dec) ∨
        s.imem[s.pc]? = some (encode .inp))) ∧
    (t.inPos ≠ s.inPos → s.imem[s.pc]? = some (encode .inp) ∧ t.inPos = s.inPos + 1) ∧
    (t.out ≠ s.out → s.imem[s.pc]? = some (encode .out) ∧ t.out = s.out ++ [s.tape.read s.ptr])

/-- 10_state.md R15, R18 to R20: no step reads `SRCMAP`, `RUN_STATE`, `PENDING`, `STEP_DELAY` or `STEPS_PER_BATCH`:
with any values there it ends the same way, and leaves them there but for the `Idle` of a halted step. -/
def Obligations.StepIgnoresTheHostsRegisters : Prop :=
  ∀ (s : State) (m : List Nat) (r : RunState) (p : Bool) (d b : Nat),
    step { s with srcMap := m, runState := r, pending := p, stepDelay := d, stepsPerBatch := b } =
      match step s with
      | .next t => .next { t with srcMap := m, runState := if s.plen ≤ s.pc then .idle else r, pending := p,
                                  stepDelay := d, stepsPerBatch := b }
      | .fault f => .fault f
      | .refused x => .refused x

/-! ### Invariants and progress -/

/-- The state after reset meets the invariant of 10_state.md R24. -/
def Obligations.ResetMeetsTheInvariant : Prop := State.reset.Inv

/-- 10_state.md R24: every step keeps the invariant, from every state that meets it. -/
def Obligations.StepKeepsTheInvariant : Prop :=
  ∀ s t : State, s.Inv → step s = .next t → t.Inv

/-- 10_state.md R24: every host operation keeps the invariant, from every state that meets it. -/
def Obligations.HostOperationsKeepTheInvariant : Prop :=
  ∀ (o : HostOp) (s t : State) (v : HostValue), s.Inv → hostOp o s = .next (t, v) → t.Inv

/-- 10_state.md R24: every state a host can reach, from power-on with any parameters and any values of the two
settings, meets the invariant. -/
def Obligations.ReachableStatesMeetTheInvariant : Prop :=
  ∀ s : State, Reachable s → s.Inv

/-- 60_exceptions.md R140: with the output unbounded no step from a state that meets the invariant stops, and neither
does any number of them. -/
def Obligations.StepsNeverFail : Prop :=
  ∀ (n : Nat) (s : State), s.Inv → s.config.outCap = none → ∃ t, batch n s = .next t

/-- 60_exceptions.md R140 with decision D3 (log entry 10): from a state that meets the invariant the only step that
does not answer a state is an `OUT` instruction at a full output buffer. -/
def Obligations.StuckOnlyAtAFullOutputBuffer : Prop :=
  ∀ s : State, s.Inv → (∀ t, step s ≠ .next t) →
    step s = .fault .outputFull ∧ s.imem[s.pc]? = some (encode .out) ∧ s.config.outCap = some s.out.length

/-- 60_exceptions.md R142, the spec's own inference: no host operation but `RESET` and `LOAD` moves a halted machine. -/
def Obligations.HaltingIsFinal : Prop :=
  ∀ (o : HostOp) (s t : State) (v : HostValue), s.plen ≤ s.pc → o ≠ .reset → (∀ src inp, o ≠ .load src inp) →
    hostOp o s = .next (t, v) →
    t.pc = s.pc ∧ t.imem = s.imem ∧ t.ptr = s.ptr ∧ t.tape = s.tape ∧ t.out = s.out ∧ t.inPos = s.inPos

/-- 00_scope.md R5 (decisions D2, D9): `PTR` and `PC` fit the derived widths, and `PTRW` is the smallest that holds
`TAPE_LEN` indices. -/
def Obligations.RegistersFitTheirWidths : Prop :=
  ∀ s : State, s.Inv →
    s.ptr < 2 ^ ptrWidth s.config ∧ s.config.tapeLen ≤ 2 ^ ptrWidth s.config ∧
    (∀ w, s.config.tapeLen ≤ 2 ^ w → ptrWidth s.config ≤ w) ∧
    (∀ w, pcWidth s.config = some w → s.pc < 2 ^ w)

/-- 00_scope.md R9: in a program that is not malformed no step from `PC ≤ PLEN` goes past `PLEN`. -/
def Obligations.WellNestedProgramsNeverPassTheEnd : Prop :=
  ∀ (n : Nat) (s t : State), ¬ malformed s.imem → s.pc ≤ s.plen → batch n s = .next t → t.pc ≤ t.plen

/-! ### The host interface -/

/-- 41_step_cycle.md R96 (decision D15; log entry 16): a batch is its steps one after the other, with no early stop,
and an empty one changes nothing. -/
def Obligations.BatchIsRepeatedSteps : Prop :=
  (∀ s : State, hostOp (.batch 0) s = .next (s, .continues (decide (s.pc < s.imem.length)))) ∧
  (∀ s : State, hostOp (.batch 1) s = hostOp .step s) ∧
  (∀ (m n : Nat) (s t : State), batch m s = .next t → hostOp (.batch (m + n)) s = hostOp (.batch n) t)

/-- 41_step_cycle.md R97: the host's loop ends with the first step that leaves the machine halted, after at most its
fuel, and every state between is not halted. -/
def Obligations.RunToHaltStopsAtTheFirstHalt : Prop :=
  ∀ (fuel : Nat) (s t : State), runToHalt fuel s = some (.next t) →
    ∃ n, n < fuel ∧ batch (n + 1) s = .next t ∧ t.plen ≤ t.pc ∧
      ∀ m, m < n → ∃ u, batch (m + 1) s = .next u ∧ u.pc < u.plen

/-- 46_host_interface.md R126: the six accessors, each with its value and the state unchanged. -/
def Obligations.AccessorsReadAndChangeNothing : Prop :=
  ∀ s : State,
    hostOp .getPtr s = .next (s, .nat s.ptr) ∧
    (∀ i, i < s.config.tapeLen → hostOp (.getCell i) s = .next (s, .byte (s.tape.read i))) ∧
    hostOp .getPc s = .next (s, .nat s.pc) ∧
    hostOp .getPlen s = .next (s, .nat s.imem.length) ∧
    hostOp .getOutput s = .next (s, .bytes s.out) ∧
    (∀ o, s.pc < s.imem.length → s.srcMap[s.pc]? = some o → hostOp .getSrcOffset s = .next (s, .offset (some o))) ∧
    (s.imem.length ≤ s.pc → hostOp .getSrcOffset s = .next (s, .offset none))

/-- 46_host_interface.md, `GET_CELL` outside the tape is refused: it neither wraps nor reads 0 (decision D16; log
entry 13). -/
def Obligations.GetCellOutsideTheTapeIsRefused : Prop :=
  ∀ (s : State) (i : Nat), s.config.tapeLen ≤ i → hostOp (.getCell i) s = .refused .cellIndexOutsideTape

/-- 46_host_interface.md, the settings (decision D14; log entry 14): a value that fits is stored and read back, nothing
else changes, and one that does not fit is refused. -/
def Obligations.SettingsAreStored : Prop :=
  ∀ (s : State) (v : Nat),
    (v < 2 ^ s.config.delayW → hostOp (.setDelay v) s = .next ({ s with stepDelay := v }, .unit)) ∧
    (v < 2 ^ s.config.batchW → hostOp (.setBatch v) s = .next ({ s with stepsPerBatch := v }, .unit)) ∧
    (2 ^ s.config.delayW ≤ v → hostOp (.setDelay v) s = .refused .settingOutOfRange) ∧
    (2 ^ s.config.batchW ≤ v → hostOp (.setBatch v) s = .refused .settingOutOfRange) ∧
    hostOp .getDelay s = .next (s, .nat s.stepDelay) ∧ hostOp .getBatch s = .next (s, .nat s.stepsPerBatch)

/-- 46_host_interface.md, the labels the host keeps (decisions D12, D13; log entry 17): `MARK` writes `RUN_STATE`,
`SCHEDULE` and `CANCEL` write `PENDING`, and nothing else changes. -/
def Obligations.MarksAndSchedulesAreLabels : Prop :=
  ∀ s : State,
    hostOp (.mark .running) s = .next ({ s with runState := .running }, .unit) ∧
    hostOp (.mark .paused) s = .next ({ s with runState := .paused }, .unit) ∧
    hostOp .getRunState s = .next (s, .runState s.runState) ∧
    hostOp .schedule s = .next ({ s with pending := true }, .unit) ∧
    hostOp .cancel s = .next ({ s with pending := false }, .unit)

/-- 70_reset_and_hazards.md R158, the spec's own inference: after any run from a `LOAD`, `RESET` gives back the loaded
state but for the input cursor. Only where the reset rewinds the input, or the cursor is 0, is it the loaded state
itself and the rerun exact; a fresh `LOAD` of the same texts always gives the loaded state back. -/
def Obligations.ResetGivesBackTheLoadedStateButForTheCursor : Prop :=
  ∀ (src inp : List Nat) (n : Nat) (s u t : State), loadOp src inp s = .next u → batch n u = .next t →
    resetOp t = { u with inPos := if u.config.resetRewindsInput then 0 else t.inPos } ∧
    (u.config.resetRewindsInput = true ∨ t.inPos = 0 → resetOp t = u ∧ batch n (resetOp t) = .next t) ∧
    loadOp src inp t = .next u
end

