-- ==== Sys2Proof/Laws/Decode.lean ====
section
/-! SUPPORT. One lemma per function of the decoder: what it reads and what it refuses. -/

namespace Sys2Proof

@[simp] theorem decodeSymbol_encode (i : Instr) : decodeSymbol (encode i) = .ok i := by cases i <;> rfl

/-- A symbol decodes to the one instruction whose code it is. -/
theorem decodeSymbol_ok_iff (c : Byte) (i : Instr) : decodeSymbol c = .ok i ↔ c = encode i := by
  constructor
  · intro h
    simp only [decodeSymbol] at h
    repeat' split at h
    all_goals first
      | (injection h with h; subst h; assumption)
      | cases h
  · rintro rfl
    exact decodeSymbol_encode i

/-- The only error on a symbol names it. -/
theorem decodeSymbol_error_iff (c : Byte) (e : DecodeError) :
    decodeSymbol c = .error e ↔ e = .notInAlphabet c ∧ ∀ i, c ≠ encode i := by
  constructor
  · intro h
    refine ⟨?_, fun i hi => ?_⟩
    · simp only [decodeSymbol] at h
      repeat' split at h
      all_goals first
        | (injection h with h; exact h.symm)
        | cases h
    · rw [hi, decodeSymbol_encode] at h
      cases h
  · rintro ⟨rfl, h⟩
    have h' : ∀ i, decodeSymbol c ≠ .ok i := fun i hi => h i ((decodeSymbol_ok_iff c i).1 hi)
    simp only [decodeSymbol] at h' ⊢
    repeat' split
    all_goals first
      | rfl
      | (exfalso; simp_all)

theorem encode_injective {i j : Instr} (h : encode i = encode j) : i = j := by
  have h1 := decodeSymbol_encode i
  rw [h, decodeSymbol_encode] at h1
  injection h1 with h1
  exact h1.symm

@[simp] theorem encode_inj {i j : Instr} : encode i = encode j ↔ i = j :=
  ⟨encode_injective, fun h => h ▸ rfl⟩

theorem inAlphabet_iff (c : Byte) : inAlphabet c = true ↔ ∃ i, c = encode i := by
  unfold inAlphabet
  constructor
  · split
    · rename_i i h
      exact fun _ => ⟨i, (decodeSymbol_ok_iff c i).1 h⟩
    · intro h; cases h
  · rintro ⟨i, rfl⟩
    rw [decodeSymbol_encode]

@[simp] theorem inAlphabet_encode (i : Instr) : inAlphabet (encode i) = true := (inAlphabet_iff _).2 ⟨i, rfl⟩

/-- Every index of a checked program holds an instruction. -/
theorem programInAlphabet_get {p : List Byte} (h : programInAlphabet p = true) {k : Nat} {c : Byte}
    (hc : p[k]? = some c) : ∃ i, c = encode i :=
  (inAlphabet_iff c).1 (List.all_eq_true.1 h c (List.mem_of_getElem? hc))

end Sys2Proof
end

