-- ==== Sys2Proof/Laws/Jumps.lean ====
section
/-! SUPPORT. The two scans of the jump resolver (45_jumps.md R115): where they can stop. -/

namespace Sys2Proof.Machine

/-- The forward scan stops at a symbol that brings the depth to 0, or off the end. -/
theorem fwdScan_spec (rest : List Byte) (p d : Nat) :
    (fwdScan rest p d = p + rest.length) ∨
    (p ≤ fwdScan rest p d ∧ fwdScan rest p d < p + rest.length ∧
      (0 < d → rest[fwdScan rest p d - p]? = some (encode .jnz))) := by
  induction rest generalizing p d with
  | nil => exact .inl rfl
  | cons c rest ih =>
    unfold fwdScan
    split
    · rename_i hz
      refine .inr ⟨Nat.le_refl p, by simp, fun hd => ?_⟩
      unfold depthAfterFwd at hz
      split at hz
      · omega
      · split at hz
        · simp [*]
        · omega
    · rename_i hz
      rcases ih (p + 1) (depthAfterFwd c d) with h | ⟨h1, h2, h3⟩
      · exact .inl (by rw [h, List.length_cons]; omega)
      · refine .inr ⟨by omega, by rw [List.length_cons]; omega, fun _ => ?_⟩
        have := h3 (by omega)
        rw [show fwdScan rest (p + 1) (depthAfterFwd c d) - p
          = (fwdScan rest (p + 1) (depthAfterFwd c d) - (p + 1)) + 1 by omega, List.getElem?_cons_succ]
        exact this

/-- From a jump inside the program the forward scan stops past it, at a `JNZ` or at `PLEN`. -/
theorem fwdStop_spec {imem : List Byte} {i : Nat} (hi : i < imem.length) :
    fwdStop imem i = imem.length ∨
    (i < fwdStop imem i ∧ fwdStop imem i < imem.length ∧ imem[fwdStop imem i]? = some (encode .jnz)) := by
  have hlen : (imem.drop (i + 1)).length = imem.length - (i + 1) := List.length_drop
  rcases fwdScan_spec (imem.drop (i + 1)) (i + 1) 1 with h | ⟨h1, h2, h3⟩
  · refine .inl ?_
    unfold fwdStop
    rw [h, hlen]
    omega
  · refine .inr ⟨by unfold fwdStop; omega, by unfold fwdStop; omega, ?_⟩
    have := h3 (by omega)
    rw [List.getElem?_drop] at this
    unfold fwdStop
    rwa [show (i + 1) + (fwdScan (imem.drop (i + 1)) (i + 1) 1 - (i + 1))
      = fwdScan (imem.drop (i + 1)) (i + 1) 1 by omega] at this

/-- The forward scan never passes the end. -/
theorem fwdStop_le {imem : List Byte} {i : Nat} (hi : i < imem.length) : fwdStop imem i ≤ imem.length := by
  rcases fwdStop_spec hi with h | ⟨_, h, _⟩ <;> omega

/-- The backward scan stops before its start, at a `JZ`. -/
theorem bwdScan_spec {imem : List Byte} {p d j : Nat} (hd : 0 < d) (h : bwdScan imem p d = some j) :
    j < p ∧ imem[j]? = some (encode .jz) := by
  induction p generalizing d with
  | zero => cases h
  | succ p ih =>
    unfold bwdScan at h
    cases hc : imem[p]? with
    | none =>
      rw [hc] at h
      have := ih hd h
      exact ⟨by omega, this.2⟩
    | some c =>
      rw [hc] at h
      simp only at h
      split at h
      · rename_i hz
        injection h with h
        subst h
        refine ⟨by omega, ?_⟩
        rw [hc]
        unfold depthAfterBwd at hz
        split at hz
        · omega
        · split at hz
          · simp [*]
          · omega
      · rename_i hz
        have := ih (by omega) h
        exact ⟨by omega, this.2⟩

/-- A match found by the backward scan is an earlier `JZ`. -/
theorem bwdStop_spec {imem : List Byte} {i j : Nat} (h : bwdStop imem i = some j) :
    j < i ∧ imem[j]? = some (encode .jz) :=
  bwdScan_spec (by omega) h

/-- `bal` adds up over a run cut in two. -/
theorem bal_append (p q : List Byte) : bal (p ++ q) = bal p + bal q := by
  induction p with
  | nil => simp [bal]
  | cons c p ih => simp only [List.cons_append, bal, ih]; omega

end Sys2Proof.Machine
end

