-- ==== Sys2Proof/Laws/Loader.lean ====
section
/-! SUPPORT. The program loader (40_load_and_loader.md R81, R82). -/

namespace Sys2Proof.Machine

/-- A character is kept exactly when it is one of the eight codes. -/
theorem symbolOfChar_iff (ch : Nat) (c : Byte) :
    symbolOfChar ch = some c ↔ (∃ i, c = encode i) ∧ ch = c.toNat := by
  unfold symbolOfChar
  constructor
  · intro h
    split at h
    · split at h
      · rename_i hlt ha
        injection h with h
        subst h
        refine ⟨(inAlphabet_iff _).1 ha, ?_⟩
        rw [BitVec.toNat_ofNat, Nat.mod_eq_of_lt hlt]
      · cases h
    · cases h
  · rintro ⟨⟨i, rfl⟩, rfl⟩
    rw [if_pos (encode i).isLt, BitVec.ofNat_toNat]
    simp

@[simp] theorem symbolOfChar_encode (i : Instr) : symbolOfChar (encode i).toNat = some (encode i) :=
  (symbolOfChar_iff _ _).2 ⟨⟨i, rfl⟩, rfl⟩

/-- The instruction sequence is the kept characters, in order. -/
theorem parseFrom_fst (k : Nat) (src : List Nat) : (parseFrom k src).1 = src.filterMap symbolOfChar := by
  induction src generalizing k with
  | nil => rfl
  | cons ch rest ih =>
    unfold parseFrom
    cases h : symbolOfChar ch with
    | none => simp [h, ih]
    | some c => simp [h, ih]

/-- The two results have one length. -/
theorem parseFrom_length (k : Nat) (src : List Nat) : (parseFrom k src).2.length = (parseFrom k src).1.length := by
  induction src generalizing k with
  | nil => rfl
  | cons ch rest ih =>
    unfold parseFrom
    split
    · simp [ih]
    · exact ih _

/-- Every offset lies in the text. -/
theorem parseFrom_range {k : Nat} {src : List Nat} {o : Nat} (h : o ∈ (parseFrom k src).2) :
    k ≤ o ∧ o < k + src.length := by
  induction src generalizing k with
  | nil => cases h
  | cons ch rest ih =>
    unfold parseFrom at h
    split at h
    · rcases List.mem_cons.1 h with rfl | h
      · simp
      · have := ih h
        simp only [List.length_cons]
        omega
    · have := ih h
      simp only [List.length_cons]
      omega

/-- The loader keeps symbols of the alphabet only. -/
theorem parse_inAlphabet (src : List Nat) : programInAlphabet (parse src).1 = true := by
  unfold parse programInAlphabet
  rw [parseFrom_fst, List.all_eq_true]
  intro c hc
  obtain ⟨ch, _, h⟩ := List.mem_filterMap.1 hc
  exact (inAlphabet_iff c).2 ((symbolOfChar_iff ch c).1 h).1

@[simp] theorem convertInput_length (cfg : Config) (inp : List Nat) :
    (convertInput cfg inp).length = inp.length := by simp [convertInput]

end Sys2Proof.Machine
end

