-- ==== Sys2Proof/Laws/Memory.lean ====
section
/-! SUPPORT. The laws of the tape: a read after a write, the canonical form kept by every operation, and that two tapes
in canonical form that read alike are equal. -/

namespace Sys2Proof.Machine

@[simp] theorem Memory.read_nil (a : Nat) : Memory.read [] a = unlistedCell := rfl

theorem Memory.read_put (a : Nat) (v : Byte) (m : Memory) (x : Nat) (h : Memory.read m a = unlistedCell) :
    (Memory.put a v m).read x = if x = a then v else m.read x := by
  unfold Memory.put
  split
  · rename_i hv
    split
    · rename_i hx
      rw [hx, h, hv]
    · rfl
  · simp only [Memory.read]

theorem Memory.wfFrom_mono {lo lo' : Nat} {m : Memory} (h : lo' ≤ lo) (hm : Memory.wfFrom lo m = true) :
    Memory.wfFrom lo' m = true := by
  cases m with
  | nil => rfl
  | cons c m =>
    simp only [Memory.wfFrom, Bool.and_eq_true, decide_eq_true_eq] at hm ⊢
    exact ⟨⟨by omega, hm.1.2⟩, hm.2⟩

/-- Below the first listed address every cell is unlisted. -/
theorem Memory.read_below {lo : Nat} {m : Memory} (hm : Memory.wfFrom lo m = true) {a : Nat} (ha : a < lo) :
    m.read a = unlistedCell := by
  induction m generalizing lo with
  | nil => rfl
  | cons c m ih =>
    simp only [Memory.wfFrom, Bool.and_eq_true, decide_eq_true_eq] at hm
    have hne : a ≠ c.1 := by omega
    simp only [Memory.read, hne, if_false]
    exact ih hm.2 (by omega)

theorem Memory.wfFrom_put {lo a : Nat} {v : Byte} {m : Memory} (hlo : lo ≤ a) (hm : Memory.wfFrom (a + 1) m = true) :
    Memory.wfFrom lo (Memory.put a v m) = true := by
  unfold Memory.put
  split
  · exact Memory.wfFrom_mono (by omega) hm
  · rename_i hv
    simp [Memory.wfFrom, hlo, hv, hm]

theorem Memory.wfFrom_write {lo : Nat} {m : Memory} (hm : Memory.wfFrom lo m = true) {a : Nat} (ha : lo ≤ a)
    (v : Byte) : Memory.wfFrom lo (m.write a v) = true := by
  induction m generalizing lo with
  | nil => exact Memory.wfFrom_put ha rfl
  | cons c m ih =>
    have hm' := hm
    simp only [Memory.wfFrom, Bool.and_eq_true, decide_eq_true_eq] at hm'
    unfold Memory.write
    split
    · refine Memory.wfFrom_put ha ?_
      simp only [Memory.wfFrom, Bool.and_eq_true, decide_eq_true_eq]
      exact ⟨⟨by omega, hm'.1.2⟩, hm'.2⟩
    · split
      · rename_i he
        exact Memory.wfFrom_put ha (he ▸ hm'.2)
      · simp only [Memory.wfFrom, Bool.and_eq_true, decide_eq_true_eq]
        exact ⟨hm'.1, ih hm'.2 (by omega)⟩

/-- A write keeps the canonical form. -/
theorem Memory.wf_write {m : Memory} (hm : m.wf = true) (a : Nat) (v : Byte) : (m.write a v).wf = true :=
  Memory.wfFrom_write hm (Nat.zero_le a) v

/-- The empty tape is in canonical form. -/
@[simp] theorem Memory.wf_nil : Memory.wf [] = true := rfl

theorem Memory.read_writeFrom {lo : Nat} {m : Memory} (hm : Memory.wfFrom lo m = true) (a : Nat) (v : Byte) (x : Nat) :
    (m.write a v).read x = if x = a then v else m.read x := by
  induction m generalizing lo with
  | nil => exact Memory.read_put a v [] x rfl
  | cons c m ih =>
    have hm' := hm
    simp only [Memory.wfFrom, Bool.and_eq_true, decide_eq_true_eq] at hm'
    unfold Memory.write
    split
    · rename_i hlt
      refine Memory.read_put a v _ x ?_
      have hc : Memory.wfFrom c.1 (c :: m) = true := by
        simp only [Memory.wfFrom, Bool.and_eq_true, decide_eq_true_eq]
        exact ⟨⟨Nat.le_refl _, hm'.1.2⟩, hm'.2⟩
      exact Memory.read_below hc hlt
    · split
      · rename_i he
        rw [Memory.read_put a v m x (Memory.read_below hm'.2 (by omega))]
        by_cases hx : x = a
        · simp [hx]
        · have : x ≠ c.1 := by omega
          simp [Memory.read, hx, this]
      · simp only [Memory.read]
        by_cases hx : x = c.1
        · have hxa : x ≠ a := by omega
          rw [if_pos hx, if_neg hxa, if_pos hx]
        · simp only [hx, if_false]
          exact ih hm'.2

/-- What every cell reads as after a write. -/
theorem Memory.read_write {m : Memory} (hm : m.wf = true) (a : Nat) (v : Byte) (x : Nat) :
    (m.write a v).read x = if x = a then v else m.read x :=
  Memory.read_writeFrom hm a v x

/-- A read after a write to the same cell gives the value written. -/
theorem Memory.read_write_same {m : Memory} (hm : m.wf = true) (a : Nat) (v : Byte) : (m.write a v).read a = v := by
  simp [Memory.read_write hm]

/-- A write leaves every other cell alone. -/
theorem Memory.read_write_other {m : Memory} (hm : m.wf = true) {a x : Nat} (h : x ≠ a) (v : Byte) :
    (m.write a v).read x = m.read x := by
  simp [Memory.read_write hm, h]

theorem Memory.ext_from {lo : Nat} {m n : Memory} (hm : Memory.wfFrom lo m = true) (hn : Memory.wfFrom lo n = true)
    (h : ∀ a, m.read a = n.read a) : m = n := by
  induction m generalizing lo n with
  | nil =>
    cases n with
    | nil => rfl
    | cons d n =>
      simp only [Memory.wfFrom, Bool.and_eq_true, decide_eq_true_eq] at hn
      have := h d.1
      simp [Memory.read] at this
      exact absurd this.symm hn.1.2
  | cons c m ih =>
    have hm' := hm
    simp only [Memory.wfFrom, Bool.and_eq_true, decide_eq_true_eq] at hm'
    cases n with
    | nil =>
      have := h c.1
      simp [Memory.read] at this
      exact absurd this hm'.1.2
    | cons d n =>
      have hn' := hn
      simp only [Memory.wfFrom, Bool.and_eq_true, decide_eq_true_eq] at hn'
      have hcd : c.1 = d.1 := by
        rcases Nat.lt_trichotomy c.1 d.1 with hlt | he | hgt
        · have := h c.1
          have hne : c.1 ≠ d.1 := by omega
          simp [Memory.read, hne, Memory.read_below hn'.2 (show c.1 < d.1 + 1 by omega)] at this
          exact absurd this hm'.1.2
        · exact he
        · have := h d.1
          have hne : d.1 ≠ c.1 := by omega
          simp [Memory.read, hne, Memory.read_below hm'.2 (show d.1 < c.1 + 1 by omega)] at this
          exact absurd this.symm hn'.1.2
      have hw : c.2 = d.2 := by
        have := h c.1
        simpa [Memory.read, hcd] using this
      have hrest : m = n := by
        refine ih hm'.2 (hcd ▸ hn'.2) fun a => ?_
        by_cases ha : a ≤ c.1
        · rw [Memory.read_below hm'.2 (by omega), Memory.read_below hn'.2 (by omega)]
        · have := h a
          have h1 : a ≠ c.1 := by omega
          have h2 : a ≠ d.1 := by omega
          simpa [Memory.read, h1, h2] using this
      rw [hrest, show c = d from Prod.ext hcd hw]

/-- Two tapes in canonical form that read alike at every address are equal. -/
theorem Memory.eq_of_read {m n : Memory} (hm : m.wf = true) (hn : n.wf = true) (h : ∀ a, m.read a = n.read a) :
    m = n :=
  Memory.ext_from hm hn h

/-- Writing back what a cell holds changes nothing. -/
theorem Memory.write_read_self {m : Memory} (hm : m.wf = true) (a : Nat) : m.write a (m.read a) = m := by
  refine Memory.eq_of_read (Memory.wf_write hm a _) hm fun x => ?_
  rw [Memory.read_write hm]
  split
  · rename_i h; rw [h]
  · rfl

/-- Of two writes to one cell the later one stands. -/
theorem Memory.write_write {m : Memory} (hm : m.wf = true) (a : Nat) (v w : Byte) :
    (m.write a v).write a w = m.write a w := by
  have h1 := Memory.wf_write hm a v
  refine Memory.eq_of_read (Memory.wf_write h1 a w) (Memory.wf_write hm a w) fun x => ?_
  rw [Memory.read_write h1, Memory.read_write hm, Memory.read_write hm]
  split <;> rfl

/-- The listed cells stay within the tape. -/
theorem Memory.within_write {len : Nat} {m : Memory} (hm : m.within len = true) {a : Nat} (ha : a < len) (v : Byte) :
    (m.write a v).within len = true := by
  have hput : ∀ n : Memory, n.within len = true → (Memory.put a v n).within len = true := by
    intro n hn
    unfold Memory.put
    split
    · exact hn
    · simp only [Memory.within, List.all_cons, Bool.and_eq_true, decide_eq_true_eq]
      exact ⟨ha, hn⟩
  induction m with
  | nil => exact hput [] rfl
  | cons c m ih =>
    have hm' := hm
    simp only [Memory.within, List.all_cons, Bool.and_eq_true, decide_eq_true_eq] at hm'
    unfold Memory.write
    split
    · exact hput _ hm
    · split
      · exact hput m hm'.2
      · simp only [Memory.within, List.all_cons, Bool.and_eq_true, decide_eq_true_eq]
        exact ⟨hm'.1, ih hm'.2⟩

end Sys2Proof.Machine
end

