-- ==== Sys2Proof/Laws/State.lean ====
section
/-! SUPPORT. What each update of a field leaves in each field, all true by definition, so that no proof unfolds a
record update. -/

namespace Sys2Proof.Machine

/-- `PLEN` is spelled as the length of `imem` in normal form. -/
@[simp] theorem State.plen_eq (s : State) : s.plen = s.imem.length := rfl

section withPtr
variable (s : State) (v : Nat)
@[simp] theorem State.withPtr_config : (s.withPtr v).config = s.config := rfl
@[simp] theorem State.withPtr_imem : (s.withPtr v).imem = s.imem := rfl
@[simp] theorem State.withPtr_srcMap : (s.withPtr v).srcMap = s.srcMap := rfl
@[simp] theorem State.withPtr_inq : (s.withPtr v).inq = s.inq := rfl
@[simp] theorem State.withPtr_inPos : (s.withPtr v).inPos = s.inPos := rfl
@[simp] theorem State.withPtr_tape : (s.withPtr v).tape = s.tape := rfl
@[simp] theorem State.withPtr_ptr : (s.withPtr v).ptr = v := rfl
@[simp] theorem State.withPtr_pc : (s.withPtr v).pc = s.pc := rfl
@[simp] theorem State.withPtr_out : (s.withPtr v).out = s.out := rfl
@[simp] theorem State.withPtr_runState : (s.withPtr v).runState = s.runState := rfl
@[simp] theorem State.withPtr_pending : (s.withPtr v).pending = s.pending := rfl
@[simp] theorem State.withPtr_stepDelay : (s.withPtr v).stepDelay = s.stepDelay := rfl
@[simp] theorem State.withPtr_stepsPerBatch : (s.withPtr v).stepsPerBatch = s.stepsPerBatch := rfl
end withPtr

section withPc
variable (s : State) (v : Nat)
@[simp] theorem State.withPc_config : (s.withPc v).config = s.config := rfl
@[simp] theorem State.withPc_imem : (s.withPc v).imem = s.imem := rfl
@[simp] theorem State.withPc_srcMap : (s.withPc v).srcMap = s.srcMap := rfl
@[simp] theorem State.withPc_inq : (s.withPc v).inq = s.inq := rfl
@[simp] theorem State.withPc_inPos : (s.withPc v).inPos = s.inPos := rfl
@[simp] theorem State.withPc_tape : (s.withPc v).tape = s.tape := rfl
@[simp] theorem State.withPc_ptr : (s.withPc v).ptr = s.ptr := rfl
@[simp] theorem State.withPc_pc : (s.withPc v).pc = v := rfl
@[simp] theorem State.withPc_out : (s.withPc v).out = s.out := rfl
@[simp] theorem State.withPc_runState : (s.withPc v).runState = s.runState := rfl
@[simp] theorem State.withPc_pending : (s.withPc v).pending = s.pending := rfl
@[simp] theorem State.withPc_stepDelay : (s.withPc v).stepDelay = s.stepDelay := rfl
@[simp] theorem State.withPc_stepsPerBatch : (s.withPc v).stepsPerBatch = s.stepsPerBatch := rfl
end withPc

section withTape
variable (s : State) (v : Memory)
@[simp] theorem State.withTape_config : (s.withTape v).config = s.config := rfl
@[simp] theorem State.withTape_imem : (s.withTape v).imem = s.imem := rfl
@[simp] theorem State.withTape_srcMap : (s.withTape v).srcMap = s.srcMap := rfl
@[simp] theorem State.withTape_inq : (s.withTape v).inq = s.inq := rfl
@[simp] theorem State.withTape_inPos : (s.withTape v).inPos = s.inPos := rfl
@[simp] theorem State.withTape_tape : (s.withTape v).tape = v := rfl
@[simp] theorem State.withTape_ptr : (s.withTape v).ptr = s.ptr := rfl
@[simp] theorem State.withTape_pc : (s.withTape v).pc = s.pc := rfl
@[simp] theorem State.withTape_out : (s.withTape v).out = s.out := rfl
@[simp] theorem State.withTape_runState : (s.withTape v).runState = s.runState := rfl
@[simp] theorem State.withTape_pending : (s.withTape v).pending = s.pending := rfl
@[simp] theorem State.withTape_stepDelay : (s.withTape v).stepDelay = s.stepDelay := rfl
@[simp] theorem State.withTape_stepsPerBatch : (s.withTape v).stepsPerBatch = s.stepsPerBatch := rfl
end withTape

section withOut
variable (s : State) (v : List Byte)
@[simp] theorem State.withOut_config : (s.withOut v).config = s.config := rfl
@[simp] theorem State.withOut_imem : (s.withOut v).imem = s.imem := rfl
@[simp] theorem State.withOut_srcMap : (s.withOut v).srcMap = s.srcMap := rfl
@[simp] theorem State.withOut_inq : (s.withOut v).inq = s.inq := rfl
@[simp] theorem State.withOut_inPos : (s.withOut v).inPos = s.inPos := rfl
@[simp] theorem State.withOut_tape : (s.withOut v).tape = s.tape := rfl
@[simp] theorem State.withOut_ptr : (s.withOut v).ptr = s.ptr := rfl
@[simp] theorem State.withOut_pc : (s.withOut v).pc = s.pc := rfl
@[simp] theorem State.withOut_out : (s.withOut v).out = v := rfl
@[simp] theorem State.withOut_runState : (s.withOut v).runState = s.runState := rfl
@[simp] theorem State.withOut_pending : (s.withOut v).pending = s.pending := rfl
@[simp] theorem State.withOut_stepDelay : (s.withOut v).stepDelay = s.stepDelay := rfl
@[simp] theorem State.withOut_stepsPerBatch : (s.withOut v).stepsPerBatch = s.stepsPerBatch := rfl
end withOut

section withInPos
variable (s : State) (v : Nat)
@[simp] theorem State.withInPos_config : (s.withInPos v).config = s.config := rfl
@[simp] theorem State.withInPos_imem : (s.withInPos v).imem = s.imem := rfl
@[simp] theorem State.withInPos_srcMap : (s.withInPos v).srcMap = s.srcMap := rfl
@[simp] theorem State.withInPos_inq : (s.withInPos v).inq = s.inq := rfl
@[simp] theorem State.withInPos_inPos : (s.withInPos v).inPos = v := rfl
@[simp] theorem State.withInPos_tape : (s.withInPos v).tape = s.tape := rfl
@[simp] theorem State.withInPos_ptr : (s.withInPos v).ptr = s.ptr := rfl
@[simp] theorem State.withInPos_pc : (s.withInPos v).pc = s.pc := rfl
@[simp] theorem State.withInPos_out : (s.withInPos v).out = s.out := rfl
@[simp] theorem State.withInPos_runState : (s.withInPos v).runState = s.runState := rfl
@[simp] theorem State.withInPos_pending : (s.withInPos v).pending = s.pending := rfl
@[simp] theorem State.withInPos_stepDelay : (s.withInPos v).stepDelay = s.stepDelay := rfl
@[simp] theorem State.withInPos_stepsPerBatch : (s.withInPos v).stepsPerBatch = s.stepsPerBatch := rfl
end withInPos

section withInq
variable (s : State) (v : List Byte)
@[simp] theorem State.withInq_config : (s.withInq v).config = s.config := rfl
@[simp] theorem State.withInq_imem : (s.withInq v).imem = s.imem := rfl
@[simp] theorem State.withInq_srcMap : (s.withInq v).srcMap = s.srcMap := rfl
@[simp] theorem State.withInq_inq : (s.withInq v).inq = v := rfl
@[simp] theorem State.withInq_inPos : (s.withInq v).inPos = s.inPos := rfl
@[simp] theorem State.withInq_tape : (s.withInq v).tape = s.tape := rfl
@[simp] theorem State.withInq_ptr : (s.withInq v).ptr = s.ptr := rfl
@[simp] theorem State.withInq_pc : (s.withInq v).pc = s.pc := rfl
@[simp] theorem State.withInq_out : (s.withInq v).out = s.out := rfl
@[simp] theorem State.withInq_runState : (s.withInq v).runState = s.runState := rfl
@[simp] theorem State.withInq_pending : (s.withInq v).pending = s.pending := rfl
@[simp] theorem State.withInq_stepDelay : (s.withInq v).stepDelay = s.stepDelay := rfl
@[simp] theorem State.withInq_stepsPerBatch : (s.withInq v).stepsPerBatch = s.stepsPerBatch := rfl
end withInq

section withRunState
variable (s : State) (v : RunState)
@[simp] theorem State.withRunState_config : (s.withRunState v).config = s.config := rfl
@[simp] theorem State.withRunState_imem : (s.withRunState v).imem = s.imem := rfl
@[simp] theorem State.withRunState_srcMap : (s.withRunState v).srcMap = s.srcMap := rfl
@[simp] theorem State.withRunState_inq : (s.withRunState v).inq = s.inq := rfl
@[simp] theorem State.withRunState_inPos : (s.withRunState v).inPos = s.inPos := rfl
@[simp] theorem State.withRunState_tape : (s.withRunState v).tape = s.tape := rfl
@[simp] theorem State.withRunState_ptr : (s.withRunState v).ptr = s.ptr := rfl
@[simp] theorem State.withRunState_pc : (s.withRunState v).pc = s.pc := rfl
@[simp] theorem State.withRunState_out : (s.withRunState v).out = s.out := rfl
@[simp] theorem State.withRunState_runState : (s.withRunState v).runState = v := rfl
@[simp] theorem State.withRunState_pending : (s.withRunState v).pending = s.pending := rfl
@[simp] theorem State.withRunState_stepDelay : (s.withRunState v).stepDelay = s.stepDelay := rfl
@[simp] theorem State.withRunState_stepsPerBatch : (s.withRunState v).stepsPerBatch = s.stepsPerBatch := rfl
end withRunState

section withPending
variable (s : State) (v : Bool)
@[simp] theorem State.withPending_config : (s.withPending v).config = s.config := rfl
@[simp] theorem State.withPending_imem : (s.withPending v).imem = s.imem := rfl
@[simp] theorem State.withPending_srcMap : (s.withPending v).srcMap = s.srcMap := rfl
@[simp] theorem State.withPending_inq : (s.withPending v).inq = s.inq := rfl
@[simp] theorem State.withPending_inPos : (s.withPending v).inPos = s.inPos := rfl
@[simp] theorem State.withPending_tape : (s.withPending v).tape = s.tape := rfl
@[simp] theorem State.withPending_ptr : (s.withPending v).ptr = s.ptr := rfl
@[simp] theorem State.withPending_pc : (s.withPending v).pc = s.pc := rfl
@[simp] theorem State.withPending_out : (s.withPending v).out = s.out := rfl
@[simp] theorem State.withPending_runState : (s.withPending v).runState = s.runState := rfl
@[simp] theorem State.withPending_pending : (s.withPending v).pending = v := rfl
@[simp] theorem State.withPending_stepDelay : (s.withPending v).stepDelay = s.stepDelay := rfl
@[simp] theorem State.withPending_stepsPerBatch : (s.withPending v).stepsPerBatch = s.stepsPerBatch := rfl
end withPending

section withStepDelay
variable (s : State) (v : Nat)
@[simp] theorem State.withStepDelay_config : (s.withStepDelay v).config = s.config := rfl
@[simp] theorem State.withStepDelay_imem : (s.withStepDelay v).imem = s.imem := rfl
@[simp] theorem State.withStepDelay_srcMap : (s.withStepDelay v).srcMap = s.srcMap := rfl
@[simp] theorem State.withStepDelay_inq : (s.withStepDelay v).inq = s.inq := rfl
@[simp] theorem State.withStepDelay_inPos : (s.withStepDelay v).inPos = s.inPos := rfl
@[simp] theorem State.withStepDelay_tape : (s.withStepDelay v).tape = s.tape := rfl
@[simp] theorem State.withStepDelay_ptr : (s.withStepDelay v).ptr = s.ptr := rfl
@[simp] theorem State.withStepDelay_pc : (s.withStepDelay v).pc = s.pc := rfl
@[simp] theorem State.withStepDelay_out : (s.withStepDelay v).out = s.out := rfl
@[simp] theorem State.withStepDelay_runState : (s.withStepDelay v).runState = s.runState := rfl
@[simp] theorem State.withStepDelay_pending : (s.withStepDelay v).pending = s.pending := rfl
@[simp] theorem State.withStepDelay_stepDelay : (s.withStepDelay v).stepDelay = v := rfl
@[simp] theorem State.withStepDelay_stepsPerBatch : (s.withStepDelay v).stepsPerBatch = s.stepsPerBatch := rfl
end withStepDelay

section withStepsPerBatch
variable (s : State) (v : Nat)
@[simp] theorem State.withStepsPerBatch_config : (s.withStepsPerBatch v).config = s.config := rfl
@[simp] theorem State.withStepsPerBatch_imem : (s.withStepsPerBatch v).imem = s.imem := rfl
@[simp] theorem State.withStepsPerBatch_srcMap : (s.withStepsPerBatch v).srcMap = s.srcMap := rfl
@[simp] theorem State.withStepsPerBatch_inq : (s.withStepsPerBatch v).inq = s.inq := rfl
@[simp] theorem State.withStepsPerBatch_inPos : (s.withStepsPerBatch v).inPos = s.inPos := rfl
@[simp] theorem State.withStepsPerBatch_tape : (s.withStepsPerBatch v).tape = s.tape := rfl
@[simp] theorem State.withStepsPerBatch_ptr : (s.withStepsPerBatch v).ptr = s.ptr := rfl
@[simp] theorem State.withStepsPerBatch_pc : (s.withStepsPerBatch v).pc = s.pc := rfl
@[simp] theorem State.withStepsPerBatch_out : (s.withStepsPerBatch v).out = s.out := rfl
@[simp] theorem State.withStepsPerBatch_runState : (s.withStepsPerBatch v).runState = s.runState := rfl
@[simp] theorem State.withStepsPerBatch_pending : (s.withStepsPerBatch v).pending = s.pending := rfl
@[simp] theorem State.withStepsPerBatch_stepDelay : (s.withStepsPerBatch v).stepDelay = s.stepDelay := rfl
@[simp] theorem State.withStepsPerBatch_stepsPerBatch : (s.withStepsPerBatch v).stepsPerBatch = v := rfl
end withStepsPerBatch

section withProgram
variable (s : State) (p : List Byte) (m : List Nat)
@[simp] theorem State.withProgram_config : (s.withProgram p m).config = s.config := rfl
@[simp] theorem State.withProgram_imem : (s.withProgram p m).imem = p := rfl
@[simp] theorem State.withProgram_srcMap : (s.withProgram p m).srcMap = m := rfl
@[simp] theorem State.withProgram_inq : (s.withProgram p m).inq = s.inq := rfl
@[simp] theorem State.withProgram_inPos : (s.withProgram p m).inPos = s.inPos := rfl
@[simp] theorem State.withProgram_tape : (s.withProgram p m).tape = s.tape := rfl
@[simp] theorem State.withProgram_ptr : (s.withProgram p m).ptr = s.ptr := rfl
@[simp] theorem State.withProgram_pc : (s.withProgram p m).pc = s.pc := rfl
@[simp] theorem State.withProgram_out : (s.withProgram p m).out = s.out := rfl
@[simp] theorem State.withProgram_runState : (s.withProgram p m).runState = s.runState := rfl
@[simp] theorem State.withProgram_pending : (s.withProgram p m).pending = s.pending := rfl
@[simp] theorem State.withProgram_stepDelay : (s.withProgram p m).stepDelay = s.stepDelay := rfl
@[simp] theorem State.withProgram_stepsPerBatch : (s.withProgram p m).stepsPerBatch = s.stepsPerBatch := rfl
end withProgram

section advance
variable (s : State)
@[simp] theorem advance_config : (advance s).config = s.config := rfl
@[simp] theorem advance_imem : (advance s).imem = s.imem := rfl
@[simp] theorem advance_srcMap : (advance s).srcMap = s.srcMap := rfl
@[simp] theorem advance_inq : (advance s).inq = s.inq := rfl
@[simp] theorem advance_inPos : (advance s).inPos = s.inPos := rfl
@[simp] theorem advance_tape : (advance s).tape = s.tape := rfl
@[simp] theorem advance_ptr : (advance s).ptr = s.ptr := rfl
@[simp] theorem advance_pc : (advance s).pc = s.pc + 1 := rfl
@[simp] theorem advance_out : (advance s).out = s.out := rfl
@[simp] theorem advance_runState : (advance s).runState = s.runState := rfl
@[simp] theorem advance_pending : (advance s).pending = s.pending := rfl
@[simp] theorem advance_stepDelay : (advance s).stepDelay = s.stepDelay := rfl
@[simp] theorem advance_stepsPerBatch : (advance s).stepsPerBatch = s.stepsPerBatch := rfl
end advance

section haltedNoOp
variable (s : State)
@[simp] theorem haltedNoOp_config : (haltedNoOp s).config = s.config := rfl
@[simp] theorem haltedNoOp_imem : (haltedNoOp s).imem = s.imem := rfl
@[simp] theorem haltedNoOp_srcMap : (haltedNoOp s).srcMap = s.srcMap := rfl
@[simp] theorem haltedNoOp_inq : (haltedNoOp s).inq = s.inq := rfl
@[simp] theorem haltedNoOp_inPos : (haltedNoOp s).inPos = s.inPos := rfl
@[simp] theorem haltedNoOp_tape : (haltedNoOp s).tape = s.tape := rfl
@[simp] theorem haltedNoOp_ptr : (haltedNoOp s).ptr = s.ptr := rfl
@[simp] theorem haltedNoOp_pc : (haltedNoOp s).pc = s.pc := rfl
@[simp] theorem haltedNoOp_out : (haltedNoOp s).out = s.out := rfl
@[simp] theorem haltedNoOp_runState : (haltedNoOp s).runState = .idle := rfl
@[simp] theorem haltedNoOp_pending : (haltedNoOp s).pending = s.pending := rfl
@[simp] theorem haltedNoOp_stepDelay : (haltedNoOp s).stepDelay = s.stepDelay := rfl
@[simp] theorem haltedNoOp_stepsPerBatch : (haltedNoOp s).stepsPerBatch = s.stepsPerBatch := rfl
end haltedNoOp

section stores
variable (s : State) (v : Byte)
@[simp] theorem storeCurrentCell_config : (storeCurrentCell s v).config = s.config := rfl
@[simp] theorem storeCurrentCell_imem : (storeCurrentCell s v).imem = s.imem := rfl
@[simp] theorem storeCurrentCell_srcMap : (storeCurrentCell s v).srcMap = s.srcMap := rfl
@[simp] theorem storeCurrentCell_inq : (storeCurrentCell s v).inq = s.inq := rfl
@[simp] theorem storeCurrentCell_inPos : (storeCurrentCell s v).inPos = s.inPos := rfl
@[simp] theorem storeCurrentCell_tape : (storeCurrentCell s v).tape = s.tape.write s.ptr v := rfl
@[simp] theorem storeCurrentCell_ptr : (storeCurrentCell s v).ptr = s.ptr := rfl
@[simp] theorem storeCurrentCell_pc : (storeCurrentCell s v).pc = s.pc := rfl
@[simp] theorem storeCurrentCell_out : (storeCurrentCell s v).out = s.out := rfl
@[simp] theorem storeCurrentCell_runState : (storeCurrentCell s v).runState = s.runState := rfl
@[simp] theorem storeCurrentCell_pending : (storeCurrentCell s v).pending = s.pending := rfl
@[simp] theorem storeCurrentCell_stepDelay : (storeCurrentCell s v).stepDelay = s.stepDelay := rfl
@[simp] theorem storeCurrentCell_stepsPerBatch : (storeCurrentCell s v).stepsPerBatch = s.stepsPerBatch := rfl
@[simp] theorem appendOutput_config : (appendOutput s v).config = s.config := rfl
@[simp] theorem appendOutput_imem : (appendOutput s v).imem = s.imem := rfl
@[simp] theorem appendOutput_srcMap : (appendOutput s v).srcMap = s.srcMap := rfl
@[simp] theorem appendOutput_inq : (appendOutput s v).inq = s.inq := rfl
@[simp] theorem appendOutput_inPos : (appendOutput s v).inPos = s.inPos := rfl
@[simp] theorem appendOutput_tape : (appendOutput s v).tape = s.tape := rfl
@[simp] theorem appendOutput_ptr : (appendOutput s v).ptr = s.ptr := rfl
@[simp] theorem appendOutput_pc : (appendOutput s v).pc = s.pc := rfl
@[simp] theorem appendOutput_out : (appendOutput s v).out = s.out ++ [v] := rfl
@[simp] theorem appendOutput_runState : (appendOutput s v).runState = s.runState := rfl
@[simp] theorem appendOutput_pending : (appendOutput s v).pending = s.pending := rfl
@[simp] theorem appendOutput_stepDelay : (appendOutput s v).stepDelay = s.stepDelay := rfl
@[simp] theorem appendOutput_stepsPerBatch : (appendOutput s v).stepsPerBatch = s.stepsPerBatch := rfl
end stores

section resetOp
variable (s : State)
@[simp] theorem resetOp_config : (resetOp s).config = s.config := rfl
@[simp] theorem resetOp_imem : (resetOp s).imem = s.imem := rfl
@[simp] theorem resetOp_srcMap : (resetOp s).srcMap = s.srcMap := rfl
@[simp] theorem resetOp_inq : (resetOp s).inq = s.inq := rfl
@[simp] theorem resetOp_inPos : (resetOp s).inPos = if s.config.resetRewindsInput then 0 else s.inPos := rfl
@[simp] theorem resetOp_tape : (resetOp s).tape = [] := rfl
@[simp] theorem resetOp_ptr : (resetOp s).ptr = 0 := rfl
@[simp] theorem resetOp_pc : (resetOp s).pc = 0 := rfl
@[simp] theorem resetOp_out : (resetOp s).out = [] := rfl
@[simp] theorem resetOp_runState : (resetOp s).runState = .idle := rfl
@[simp] theorem resetOp_pending : (resetOp s).pending = false := rfl
@[simp] theorem resetOp_stepDelay : (resetOp s).stepDelay = s.stepDelay := rfl
@[simp] theorem resetOp_stepsPerBatch : (resetOp s).stepsPerBatch = s.stepsPerBatch := rfl
end resetOp

section loaded
variable (src inp : List Nat) (s : State)
@[simp] theorem loaded_config : (loaded src inp s).config = s.config := rfl
@[simp] theorem loaded_imem : (loaded src inp s).imem = (parse src).1 := rfl
@[simp] theorem loaded_srcMap : (loaded src inp s).srcMap = (parse src).2 := rfl
@[simp] theorem loaded_inq : (loaded src inp s).inq = convertInput s.config inp := rfl
@[simp] theorem loaded_inPos : (loaded src inp s).inPos = 0 := rfl
@[simp] theorem loaded_tape : (loaded src inp s).tape = [] := rfl
@[simp] theorem loaded_ptr : (loaded src inp s).ptr = 0 := rfl
@[simp] theorem loaded_pc : (loaded src inp s).pc = 0 := rfl
@[simp] theorem loaded_out : (loaded src inp s).out = [] := rfl
@[simp] theorem loaded_runState : (loaded src inp s).runState = .idle := rfl
@[simp] theorem loaded_pending : (loaded src inp s).pending = false := rfl
@[simp] theorem loaded_stepDelay : (loaded src inp s).stepDelay = s.stepDelay := rfl
@[simp] theorem loaded_stepsPerBatch : (loaded src inp s).stepsPerBatch = s.stepsPerBatch := rfl
end loaded

end Sys2Proof.Machine
end

