-- ==== Sys2Proof/Laws/Ops.lean ====
section
/-! SUPPORT. What each shared operation, each meaning and one step can do, said once; later proofs cite these and
unfold none of them. -/

namespace Sys2Proof.Machine

/-- A state whose cell exists passes the check. -/
theorem ifCellExists_pos {s : State} (h : s.ptr < s.config.tapeLen) (o : Host.Outcome State Fault Refusal) :
    ifCellExists s o = o := if_pos h

/-- A state whose pointer is no index of the tape stops. -/
theorem ifCellExists_neg {s : State} (h : ¬ s.ptr < s.config.tapeLen) (o : Host.Outcome State Fault Refusal) :
    ifCellExists s o = .fault .cellOutOfRange := if_neg h

theorem ifCellExists_next {s t : State} {o : Host.Outcome State Fault Refusal} (h : ifCellExists s o = .next t) :
    s.ptr < s.config.tapeLen ∧ o = .next t := by
  unfold ifCellExists at h
  split at h
  · exact ⟨‹_›, h⟩
  · cases h

@[simp] theorem isZeroByte_iff (v : Byte) : isZeroByte v = true ↔ v = 0#8 := by simp [isZeroByte]

theorem withinCap_iff (cap : Option Nat) (n : Nat) : withinCap cap n = true ↔ ∀ c, cap = some c → n ≤ c := by
  cases cap <;> simp [withinCap]

@[simp] theorem withinCap_none (n : Nat) : withinCap none n = true := rfl

theorem toNat_incByte (v : Byte) : (incByte v).toNat = (v.toNat + 1) % 256 := by
  simp [incByte, BitVec.toNat_add]

theorem toNat_decByte (v : Byte) : (decByte v).toNat = (v.toNat + 255) % 256 := by
  simp only [decByte, BitVec.toNat_sub, BitVec.toNat_ofNat]
  omega

@[simp] theorem decByte_incByte (v : Byte) : decByte (incByte v) = v := by simp [decByte, incByte]

@[simp] theorem incByte_decByte (v : Byte) : incByte (decByte v) = v := by simp [decByte, incByte]

/-- The pointer stays an index of the tape. -/
theorem ptrAfterRight_lt {s : State} (h : 0 < s.config.tapeLen) : ptrAfterRight s < s.config.tapeLen :=
  Nat.mod_lt _ h

theorem ptrAfterLeft_lt {s : State} (h : 0 < s.config.tapeLen) : ptrAfterLeft s < s.config.tapeLen :=
  Nat.mod_lt _ h

/-! Each meaning where the current cell exists; the two moves need no cell. -/

theorem exec_right (s : State) : exec .right s = .next (advance (s.withPtr (ptrAfterRight s))) := rfl

theorem exec_left (s : State) : exec .left s = .next (advance (s.withPtr (ptrAfterLeft s))) := rfl

theorem exec_inc {s : State} (h : s.ptr < s.config.tapeLen) :
    exec .inc s = .next (advance (storeCurrentCell s (incByte (currentCell s)))) := ifCellExists_pos h _

theorem exec_dec {s : State} (h : s.ptr < s.config.tapeLen) :
    exec .dec s = .next (advance (storeCurrentCell s (decByte (currentCell s)))) := ifCellExists_pos h _

theorem exec_out {s : State} (h : s.ptr < s.config.tapeLen) :
    exec .out s =
      if outputHasRoom s then .next (advance (appendOutput s (currentCell s))) else .fault .outputFull :=
  ifCellExists_pos h _

theorem exec_inp {s : State} (h : s.ptr < s.config.tapeLen) :
    exec .inp s = .next (advance ((storeCurrentCell s (nextInput s)).withInPos (inPosAfterRead s))) :=
  ifCellExists_pos h _

theorem exec_jz {s : State} (h : s.ptr < s.config.tapeLen) :
    exec .jz s =
      .next (if isZeroByte (currentCell s) then advance (s.withPc (fwdStop s.imem s.pc)) else advance s) :=
  ifCellExists_pos h _

theorem exec_jnz {s : State} (h : s.ptr < s.config.tapeLen) :
    exec .jnz s = .next (if isZeroByte (currentCell s) then advance s else s.withPc (pcAfterJnz s)) :=
  ifCellExists_pos h _

/-- What `exec` can do when it answers a next state: one case per instruction, with its guards. -/
theorem exec_cases {i : Instr} {s t : State} (h : exec i s = .next t) :
    (i = .right ∧ t = advance (s.withPtr (ptrAfterRight s))) ∨
    (i = .left ∧ t = advance (s.withPtr (ptrAfterLeft s))) ∨
    (s.ptr < s.config.tapeLen ∧
      ((i = .inc ∧ t = advance (storeCurrentCell s (incByte (currentCell s)))) ∨
       (i = .dec ∧ t = advance (storeCurrentCell s (decByte (currentCell s)))) ∨
       (i = .out ∧ outputHasRoom s = true ∧ t = advance (appendOutput s (currentCell s))) ∨
       (i = .inp ∧ t = advance ((storeCurrentCell s (nextInput s)).withInPos (inPosAfterRead s))) ∨
       (i = .jz ∧ currentCell s = 0#8 ∧ t = advance (s.withPc (fwdStop s.imem s.pc))) ∨
       (i = .jz ∧ currentCell s ≠ 0#8 ∧ t = advance s) ∨
       (i = .jnz ∧ currentCell s = 0#8 ∧ t = advance s) ∨
       (i = .jnz ∧ currentCell s ≠ 0#8 ∧ t = s.withPc (pcAfterJnz s)))) := by
  cases i with
  | right => exact .inl ⟨rfl, by injection h with h; exact h.symm⟩
  | left => exact .inr (.inl ⟨rfl, by injection h with h; exact h.symm⟩)
  | inc =>
    obtain ⟨hp, ho⟩ := ifCellExists_next h
    injection ho with ho
    exact .inr (.inr ⟨hp, .inl ⟨rfl, ho.symm⟩⟩)
  | dec =>
    obtain ⟨hp, ho⟩ := ifCellExists_next h
    injection ho with ho
    exact .inr (.inr ⟨hp, .inr (.inl ⟨rfl, ho.symm⟩)⟩)
  | out =>
    obtain ⟨hp, ho⟩ := ifCellExists_next h
    split at ho
    · injection ho with ho
      exact .inr (.inr ⟨hp, .inr (.inr (.inl ⟨rfl, ‹_›, ho.symm⟩))⟩)
    · cases ho
  | inp =>
    obtain ⟨hp, ho⟩ := ifCellExists_next h
    injection ho with ho
    exact .inr (.inr ⟨hp, .inr (.inr (.inr (.inl ⟨rfl, ho.symm⟩)))⟩)
  | jz =>
    obtain ⟨hp, ho⟩ := ifCellExists_next h
    injection ho with ho
    by_cases hz : currentCell s = 0#8
    · simp only [(isZeroByte_iff _).2 hz, if_true] at ho
      exact .inr (.inr ⟨hp, .inr (.inr (.inr (.inr (.inl ⟨rfl, hz, ho.symm⟩))))⟩)
    · rw [if_neg (by simpa using hz)] at ho
      exact .inr (.inr ⟨hp, .inr (.inr (.inr (.inr (.inr (.inl ⟨rfl, hz, ho.symm⟩)))))⟩)
  | jnz =>
    obtain ⟨hp, ho⟩ := ifCellExists_next h
    injection ho with ho
    by_cases hz : currentCell s = 0#8
    · simp only [(isZeroByte_iff _).2 hz, if_true] at ho
      exact .inr (.inr ⟨hp, .inr (.inr (.inr (.inr (.inr (.inr (.inl ⟨rfl, hz, ho.symm⟩))))))⟩)
    · rw [if_neg (by simpa using hz)] at ho
      exact .inr (.inr ⟨hp, .inr (.inr (.inr (.inr (.inr (.inr (.inr ⟨rfl, hz, ho.symm⟩))))))⟩)

/-- The fetch reads the instruction whose code stands at `PC`, in a program of the eight codes only. -/
theorem fetch_ok_iff (s : State) (i : Instr) :
    fetch s = .ok i ↔ programInAlphabet s.imem = true ∧ s.imem[s.pc]? = some (encode i) := by
  unfold fetch
  split
  · rename_i hp
    cases hc : s.imem[s.pc]? with
    | none => simp
    | some c =>
      simp only [hp, true_and, Option.some.injEq, ← decodeSymbol_ok_iff]
      cases hd : decodeSymbol c with
      | ok j => simp
      | error e => simp
  · rename_i hp
    simp [hp]

/-- The fetch refuses by one name only. -/
theorem fetch_error {s : State} {r : Refusal} (h : fetch s = .error r) : r = .symbolNotInAlphabet := by
  unfold fetch at h
  repeat' split at h
  all_goals first
    | (injection h with h; exact h.symm)
    | cases h

/-- Inside a checked program the fetch succeeds. -/
theorem fetch_total {s : State} (hp : programInAlphabet s.imem = true) (hpc : s.pc < s.plen) :
    ∃ i, fetch s = .ok i := by
  have hc : s.imem[s.pc]? = some (s.imem[s.pc]'hpc) := List.getElem?_eq_getElem hpc
  obtain ⟨i, hi⟩ := programInAlphabet_get hp hc
  exact ⟨i, (fetch_ok_iff s i).2 ⟨hp, by rw [hc, hi]⟩⟩

theorem step_of_halted {s : State} (h : s.halted) : step s = .next (haltedNoOp s) := if_pos h

theorem step_of_fetch {s : State} {i : Instr} (h : ¬ s.halted) (hf : fetch s = .ok i) : step s = exec i s := by
  unfold step
  rw [if_neg h, hf]

/-- What one step can do when it answers a next state. -/
theorem step_cases {s t : State} (h : step s = .next t) :
    (s.halted ∧ t = haltedNoOp s) ∨
    (s.pc < s.plen ∧ programInAlphabet s.imem = true ∧
      ∃ i, s.imem[s.pc]? = some (encode i) ∧ exec i s = .next t) := by
  unfold step at h
  split at h
  · injection h with h
    exact .inl ⟨‹_›, h.symm⟩
  · rename_i hh
    cases hf : fetch s with
    | error r => rw [hf] at h; cases h
    | ok i =>
      rw [hf] at h
      obtain ⟨hp, hc⟩ := (fetch_ok_iff s i).1 hf
      exact .inr ⟨Nat.lt_of_not_le hh, hp, i, hc, h⟩

/-- The outcome of a host operation built on a state outcome. -/
theorem withResult_next {v : State → HostValue} {o : Host.Outcome State Fault Refusal} {t : State} {x : HostValue}
    (h : withResult v o = .next (t, x)) : o = .next t ∧ x = v t := by
  cases o with
  | next s =>
    injection h with h
    injection h with h1 h2
    subst h1
    exact ⟨rfl, h2.symm⟩
  | fault r => cases h
  | refused r => cases h

/-- A batch that answers a state is one step and the rest of the batch. -/
theorem batch_succ {n : Nat} {s t : State} (h : batch (n + 1) s = .next t) :
    ∃ u, step s = .next u ∧ batch n u = .next t := by
  unfold batch at h
  split at h
  · exact ⟨_, ‹_›, h⟩
  · cases h
  · cases h

/-- An accepted `LOAD` does what `loaded` says. -/
theorem loadOp_next {src inp : List Nat} {s t : State} (h : loadOp src inp s = .next t) :
    t = loaded src inp s ∧ textWf s.config src = true ∧ textWf s.config inp = true ∧
      withinCap s.config.srcCap src.length = true ∧ withinCap s.config.progCap (parse src).1.length = true ∧
      withinCap s.config.inCap inp.length = true := by
  unfold loadOp at h
  repeat' split at h
  all_goals cases h
  simp_all

end Sys2Proof.Machine
end

