-- ==== Sys2Proof/Laws/PerInstr.lean ====
section
/-! SUPPORT. What holds of every instruction as syntax, one lemma per constructor: it is well formed, its code decodes
to it, no other symbol does, and the decoder of the opcode table's words reads it. -/

namespace Sys2Proof.Laws.Code

/-- The code of `i` is the one symbol that decodes to `i`. -/
def Statement (i : Instr) : Prop :=
  i.wf = true ∧ decodeSymbol (encode i) = .ok i ∧ (∀ c, decodeSymbol c = .ok i → c = encode i) ∧
    decodeTableWord 8 (encode i).toNat = some i

theorem of_table (i : Instr) (hw : i.wf = true) (ht : decodeTableWord 8 (encode i).toNat = some i) : Statement i :=
  ⟨hw, decodeSymbol_encode i, fun c h => (decodeSymbol_ok_iff c i).1 h, ht⟩

theorem right : Statement .right := of_table _ rfl rfl
theorem left : Statement .left := of_table _ rfl rfl
theorem inc : Statement .inc := of_table _ rfl rfl
theorem dec : Statement .dec := of_table _ rfl rfl
theorem out : Statement .out := of_table _ rfl rfl
theorem inp : Statement .inp := of_table _ rfl rfl
theorem jz : Statement .jz := of_table _ rfl rfl
theorem jnz : Statement .jnz := of_table _ rfl rfl

end Sys2Proof.Laws.Code
end

