-- ==== Sys2Proof/Tests/Slice0.lean ====
section
/-! SUPPORT. The model's own tests. Expected results come from 95_test_vectors.md and the worked examples of the rules;
each witness shows that the hypotheses of a statement of Obligations.lean can be met. -/

namespace Sys2Proof.Tests

open Sys2Proof.Machine

/-- The source characters of a text written in ASCII. -/
def chars (text : String) : List Nat := text.toList.map Char.toNat

/-- A running machine with the program `prog`, `PC = pc`, the current cell `cell` at index 0 and input `A`, `B`. -/
def st (prog : List Byte) (pc : Nat) (cell : Byte) : State :=
  { State.reset with
    imem := prog, srcMap := List.range prog.length, inq := [0x41#8, 0x42#8], pc := pc
    tape := Memory.write [] 0 cell, runState := .running }

/-- The same with `TAPE_LEN = len` and the pointer at `ptr`. -/
def onTape (len ptr : Nat) (s : State) : State :=
  { s with config := { s.config with tapeLen := len }, ptr := ptr, tape := [] }

/-- A value of the state a step leaves. -/
def after {α : Type} (f : State → α) : Host.Outcome State Fault Refusal → Option α
  | .next t => some (f t)
  | .fault _ => none
  | .refused _ => none

/-- The fault a step stops with. -/
def stop : Host.Outcome State Fault Refusal → Option Fault
  | .fault r => some r
  | .next _ => none
  | .refused _ => none

/-- The refusal an operation answers. -/
def refusal : Host.Outcome State Fault Refusal → Option Refusal
  | .refused r => some r
  | .next _ => none
  | .fault _ => none

/-- `+++[>+<-]`, the program of R63. -/
def copyLoop : List Byte := [0x2B#8, 0x2B#8, 0x2B#8, 0x5B#8, 0x3E#8, 0x2B#8, 0x3C#8, 0x2D#8, 0x5D#8]

/-- `[[-]>]+`, the nested program of R117. -/
def nested : List Byte := [0x5B#8, 0x5B#8, 0x2D#8, 0x5D#8, 0x3E#8, 0x5D#8, 0x2B#8]

/-! The well-formedness checks, each with an ill-formed term it refuses. No ill-formed instruction can be written:
none has an operand (R64). -/

theorem test_config_standard_wf : Config.standard.wf = true := by decide
theorem test_config_no_cell_refused : ({ Config.standard with tapeLen := 0 } : Config).wf = false := by decide
theorem test_config_srcCap_below_progCap_refused :
    ({ Config.standard with srcCap := some 4, progCap := some 5 } : Config).wf = false := by decide
theorem test_config_srcCap_below_unbounded_refused :
    ({ Config.standard with srcCap := some 4 } : Config).wf = false := by decide
theorem test_config_charW_7_refused : ({ Config.standard with charW := 7 } : Config).wf = false := by decide
theorem test_config_byte_of_narrow_char_refused :
    ({ Config.standard with wideBytes := [(255, 0#8)] } : Config).wf = false := by decide
theorem test_config_byte_of_no_char_refused :
    ({ Config.standard with charW := 9, wideBytes := [(512, 0#8)] } : Config).wf = false := by decide
theorem test_config_delayW_0_refused : ({ Config.standard with delayW := 0 } : Config).wf = false := by decide
theorem test_config_batchW_0_refused : ({ Config.standard with batchW := 0 } : Config).wf = false := by decide
theorem test_text_wide_char_refused : textWf Config.standard [0x41, 2 ^ 21] = false := by decide
theorem test_program_foreign_symbol_refused : programInAlphabet [0x2B#8, 0x20#8] = false := by decide
theorem test_tape_unsorted_refused : Memory.wf [(3, 1#8), (2, 1#8)] = false := by decide
theorem test_tape_zero_listed_refused : Memory.wf [(3, 0#8)] = false := by decide
theorem test_tape_beyond_refused : Memory.within 4 [(4, 1#8)] = false := by decide

/-! Decoding, the codes written out bit by bit from R62's last column. -/

theorem test_decode_right : decode [0b00111110#8] = .ok (.right, []) := by decide
theorem test_decode_left : decode [0b00111100#8, 0#8] = .ok (.left, [0#8]) := by decide
theorem test_decode_inc : decode [0b00101011#8] = .ok (.inc, []) := by decide
theorem test_decode_dec : decode [0b00101101#8] = .ok (.dec, []) := by decide
theorem test_decode_out : decode [0b00101110#8] = .ok (.out, []) := by decide
theorem test_decode_in : decode [0b00101100#8] = .ok (.inp, []) := by decide
theorem test_decode_jz : decode [0b01011011#8] = .ok (.jz, []) := by decide
theorem test_decode_jnz : decode [0b01011101#8] = .ok (.jnz, []) := by decide
theorem test_decode_unused : decode [0b00101111#8] = .error (.notInAlphabet 0x2F#8) := by decide
theorem test_decode_nothing : decode [] = .error .noSymbol := by decide
/-- R70: the listing of `+++[>+<-]`. -/
theorem test_encode_copyLoop : encodeProgram [.inc, .inc, .inc, .jz, .right, .inc, .left, .dec, .jnz] = copyLoop := by
  decide

/-! One step of each instruction (95_test_vectors.md 2.3 to 2.6). -/

theorem test_right_wraps : after State.ptr (step (onTape 4 3 (st [0x3E#8] 0 0#8))) = some 0 := by decide
theorem test_right_single_cell : after State.ptr (step (onTape 1 0 (st [0x3E#8] 0 0#8))) = some 0 := by decide
theorem test_left_wraps : after State.ptr (step (st [0x3C#8] 0 0#8)) = some 29999 := by decide
theorem test_left_single_cell : after State.ptr (step (onTape 1 0 (st [0x3C#8] 0 0#8))) = some 0 := by decide
theorem test_inc_wraps : after State.tape (step (st [0x2B#8] 0 0xFF#8)) = some [] := by decide
theorem test_inc_no_sign : after State.tape (step (st [0x2B#8] 0 0x7F#8)) = some [(0, 0x80#8)] := by decide
theorem test_dec_wraps : after State.tape (step (st [0x2D#8] 0 0#8)) = some [(0, 0xFF#8)] := by decide
theorem test_dec_to_zero : after State.tape (step (st [0x2D#8] 0 1#8)) = some [] := by decide
theorem test_out_zero_byte :
    after State.out (step { st [0x2E#8] 0 0#8 with out := [0x48#8] }) = some [0x48#8, 0#8] := by decide
theorem test_out_full :
    stop (step { st [0x2E#8] 0 0#8 with config := { Config.standard with outCap := some 0 } }) = some .outputFull := by
  decide
theorem test_in_second_byte :
    after (fun t => (t.tape, t.inPos)) (step { st [0x2C#8] 0 0x41#8 with inPos := 1 }) = some ([(0, 0x42#8)], 2) := by
  decide
theorem test_in_at_end :
    after (fun t => (t.tape, t.inPos)) (step { st [0x2C#8] 0 0x42#8 with inPos := 2 }) = some ([], 2) := by decide
theorem test_jz_nested : after State.pc (step (st nested 0 0#8)) = some 6 := by decide
theorem test_jz_unmatched : after State.pc (step (st [0x5B#8, 0x2B#8] 0 0#8)) = some 3 := by decide
theorem test_jnz_taken : after State.pc (step (st copyLoop 8 2#8)) = some 4 := by decide
theorem test_jnz_unmatched : after State.pc (step (st [0x2B#8, 0x5D#8, 0x2B#8] 1 1#8)) = some 3 := by decide
/-- 2.2: a halted step writes `Idle`, and a last instruction does not. -/
theorem test_step_halted : after State.runState (step (st [0x2B#8] 1 0#8)) = some .idle := by decide
theorem test_step_last_instruction :
    after (fun t => (t.runState, t.continues)) (step (st [0x2B#8] 0 0#8)) = some (.running, false) := by decide
/-- R67: a foreign symbol is refused wherever it stands in the program. -/
theorem test_step_foreign_symbol : refusal (step (st [0x2B#8, 0x20#8] 0 0#8)) = some .symbolNotInAlphabet := by decide

/-! The scans (2.6). -/

theorem test_fwdStop_inner : fwdStop nested 1 = 3 := by decide
theorem test_fwdStop_off_the_end : fwdStop [0x5B#8, 0x5B#8, 0x5D#8] 0 = 3 := by decide
theorem test_bwdStop_outer : bwdStop nested 5 = some 0 := by decide
theorem test_bwdStop_underflow : bwdStop [0x5B#8, 0x5D#8, 0x5D#8] 2 = none := by decide

/-! The loader and the host's operations (2.1, 2.7, 2.8). -/

/-- R86's example: `'+' ' ' '+' LF '[' 'x' ']' ','`. -/
theorem test_parse_skips_comments :
    parse [43, 32, 43, 10, 91, 120, 93, 44] = ([0x2B#8, 0x2B#8, 0x5B#8, 0x5D#8, 0x2C#8], [0, 2, 4, 6, 7]) := by decide
theorem test_parse_fullwidth_plus : parse [0xFF0B] = ([], []) := by decide
theorem test_parse_accepts_malformed : (parse (chars "]]][[[")).2 = [0, 1, 2, 3, 4, 5] := by decide
theorem test_convertInput : convertInput Config.standard [0x141, 0x20AC, 0xFF] = [0x41#8, 0xAC#8, 0xFF#8] := by decide
theorem test_convertInput_own_byte :
    convertInput { Config.standard with wideBytes := [(0x20AC, 0x80#8)] } [0x20AC, 0x141] = [0x80#8, 0x41#8] := by decide
theorem test_reset_keeps_cursor : (resetOp { st [0x2C#8] 1 5#8 with inPos := 1 }).inPos = 1 := by decide
theorem test_reset_rewinds_cursor :
    (resetOp { st [0x2C#8] 1 5#8 with
      inPos := 1, config := { Config.standard with resetRewindsInput := true } }).inPos = 0 := by decide
theorem test_srcOffset_after_comment : srcOffset (loaded (chars "+++ [>+<-]") [] State.reset) = some 0 := by decide
theorem test_srcOffset_halted : srcOffset (st copyLoop 9 0#8) = none := by decide
theorem test_ptrWidth : ptrWidth Config.standard = 15 ∧ ptrWidth { Config.standard with tapeLen := 32768 } = 15 := by
  decide
theorem test_pcWidth : pcWidth { Config.standard with progCap := some 6 } = some 3 := by decide

/-! Witnesses: states and operands that meet the hypotheses of the statements, one per clause. -/

theorem witness_UnusedCodesAreRefused : (∀ i, (0x20#8 : Byte) ≠ encode i) ∧ (9 ≠ 8 ∨ 256 ≤ 62) := by
  refine ⟨fun i => ?_, by decide⟩
  cases i <;> decide
theorem witness_ProgramsDecodeAndEncodeAgree : decodeProgram [0x2B#8, 0x5D#8] = .ok [.inc, .jnz] := by decide
theorem witness_ParseKeepsExactlyTheAlphabet :
    (parse [32, 43]).1[0]? = some 0x2B#8 ∧ (parse [32, 43]).2[0]? = some 1 ∧ 0x2B#8 ∈ (parse [32, 43]).1 ∧
      ([32, 43] : List Nat)[1]? = some (encode .inc).toNat := by decide
theorem witness_CommentsAreInert :
    ([120, 43, 32, 93] : List Nat).filter (fun ch => [62, 60, 43, 45, 46, 44, 91, 93].contains ch)
      = [Instr.inc, .jnz].map (fun i => (encode i).toNat) := by decide
theorem witness_ConvertInputGivesOneByteEach :
    ([0x41] : List Nat)[0]? = some 0x41 ∧ 255 ≤ 255 ∧ Config.standard.wideBytes = [] := by decide
theorem witness_EveryByteOfCharIsCovered :
    Config.standard.wf = true ∧ ∀ ch, ch ≤ 255 → ((fun c => BitVec.ofNat 8 c : Nat → Byte) ch).toNat = ch :=
  ⟨by decide, fun ch h => by
    simp only [BitVec.toNat_ofNat]
    exact Nat.mod_eq_of_lt (show ch < 256 by omega)⟩
/-- A machine with every capacity finite. -/
def capped : State :=
  { State.reset with
    config := { Config.standard with srcCap := some 2, progCap := some 1, inCap := some 1, outCap := some 1 } }
theorem witness_LoadReplacesProgramAndResets :
    (∀ ch ∈ ([43, 32] : List Nat), ch < 2 ^ capped.config.charW) ∧
      (∀ ch ∈ ([65] : List Nat), ch < 2 ^ capped.config.charW) ∧
      withinCap capped.config.srcCap [43, 32].length = true ∧
      withinCap capped.config.progCap (parse [43, 32]).1.length = true ∧
      withinCap capped.config.inCap [65].length = true := by decide
theorem witness_LoadRefusedExactlyWhenOverCapacity :
    refusal (loadOp [32, 32, 32] [] capped) = some .sourceTooLong ∧
      refusal (loadOp [43, 43] [] capped) = some .programTooLong ∧
      refusal (loadOp [43] [65, 66] capped) = some .inputTooLong ∧
      after State.plen (loadOp [43, 32] [65] capped) = some 1 := by decide
theorem witness_LoadForgetsTheEarlierRun :
    (st copyLoop 3 7#8).config = State.reset.config ∧ (st copyLoop 3 7#8).stepDelay = State.reset.stepDelay ∧
      (st copyLoop 3 7#8).stepsPerBatch = State.reset.stepsPerBatch := by decide
theorem witness_PowerOnIsAnEmptyLoad : (st copyLoop 3 7#8).config = Config.standard := by decide
theorem witness_StepRunsTheFetchedInstruction :
    programInAlphabet copyLoop = true ∧ copyLoop[8]? = some 0x5D#8 ∧ decodeSymbol 0x5D#8 = .ok .jnz ∧
      (st copyLoop 8 0#8).pc < (st copyLoop 8 0#8).plen := by decide
theorem witness_StepWhenHaltedOnlySetsIdle :
    (st copyLoop 9 0#8).plen ≤ (st copyLoop 9 0#8).pc ∧ (st copyLoop 10 0#8).plen ≤ (st copyLoop 10 0#8).pc := by
  decide
theorem witness_StepReportsWhetherItContinues : ∃ t, step (st copyLoop 0 0#8) = .next t := ⟨_, rfl⟩
theorem witness_StepReportsWhetherItContinues_last :
    ∃ t, step (st copyLoop 8 0#8) = .next t ∧ t.imem.length ≤ t.pc := ⟨_, rfl, by decide⟩
theorem witness_ForeignSymbolsAreRefused :
    (st [0x2B#8, 0#8] 0 0#8).pc < (st [0x2B#8, 0#8] 0 0#8).plen ∧ programInAlphabet [0x2B#8, 0#8] = false := by decide
theorem witness_FetchWordIsRunNext :
    programInAlphabet State.reset.imem = true ∧ programInAlphabet (st copyLoop 8 0#8).imem = true ∧
      (st copyLoop 8 0#8).pc < (st copyLoop 8 0#8).plen := by decide
theorem witness_PcAfterEveryInstruction_plain : ∃ t, exec .inc (st copyLoop 0 0#8) = .next t := ⟨_, rfl⟩
theorem witness_PcAfterEveryInstruction_jz : ∃ t, exec .jz (st nested 0 0#8) = .next t := ⟨_, rfl⟩
theorem witness_PcAfterEveryInstruction_jnz : ∃ t, exec .jnz (st [0x5D#8] 0 1#8) = .next t := ⟨_, rfl⟩
theorem witness_RightMovesThePointer :
    (onTape 30000 29999 (st copyLoop 0 0#8)).ptr + 1 = 30000 ∧ (onTape 1 0 (st copyLoop 0 0#8)).config.tapeLen = 1 := by
  decide
theorem witness_LeftMovesThePointer :
    1 ≤ (st copyLoop 0 0#8).config.tapeLen ∧ (st copyLoop 0 0#8).ptr = 0 ∧
      (onTape 1 0 (st copyLoop 0 0#8)).config.tapeLen = 1 := by decide
/-- For `IncAddsOneModulo256`, `DecSubtractsOneModulo256`, `CellArithmeticLaws`, `PointerMovesAreInverse` and
`JzJumpsOnAZeroCell`: the last cell of the tape, holding 255. -/
theorem witness_CellExists :
    1 ≤ (st copyLoop 0 0xFF#8).config.tapeLen ∧
    (st copyLoop 0 0xFF#8).ptr < (st copyLoop 0 0xFF#8).config.tapeLen ∧ (st copyLoop 0 0xFF#8).tape.wf = true ∧
      (onTape 4 3 (st copyLoop 0 0#8)).ptr < 4 ∧ (onTape 4 3 (st copyLoop 0 0#8)).tape.wf = true := by decide
theorem witness_OutAppendsTheCurrentCell :
    capped.ptr < capped.config.tapeLen ∧ ∀ c, capped.config.outCap = some c → capped.out.length < c :=
  ⟨by decide, fun c h => by injection h with h; subst h; decide⟩
theorem witness_OutIsStuckAtItsCapacity :
    ({ capped with out := [0#8] } : State).config.outCap = some 1 ∧ 1 ≤ ({ capped with out := [0#8] } : State).out.length ∧
      capped.ptr < capped.config.tapeLen := by decide
theorem witness_InReadsTheNextByteOrZero :
    ({ st copyLoop 0 0#8 with inPos := 1 } : State).inq[1]? = some 0x42#8 ∧
      ({ st copyLoop 0 0#8 with inPos := 2 } : State).inq.length ≤ 2 ∧
      (st copyLoop 0 0#8).ptr < (st copyLoop 0 0#8).config.tapeLen ∧ (st copyLoop 0 0#8).tape.wf = true := by decide
theorem witness_JzOrdinaryCases :
    programInAlphabet nested = true ∧ nested[0]? = some (encode .jz) ∧ fwdStop nested 0 < nested.length ∧
      (st nested 0 0#8).tape.read 0 = 0#8 ∧ (st nested 0 5#8).tape.read 0 ≠ 0#8 ∧
      (st nested 0 5#8).ptr < (st nested 0 5#8).config.tapeLen := by decide
theorem witness_JzUnmatchedHaltsPastTheEnd :
    programInAlphabet [0x5B#8, 0x2B#8] = true ∧ ([0x5B#8, 0x2B#8] : List Byte)[0]? = some (encode .jz) ∧
      fwdStop [0x5B#8, 0x2B#8] 0 = 2 ∧ (st [0x5B#8, 0x2B#8] 0 0#8).tape.read 0 = 0#8 ∧
      (st [0x5B#8, 0x2B#8] 0 1#8).tape.read 0 ≠ 0#8 ∧
      (st [0x5B#8, 0x2B#8] 0 1#8).ptr < (st [0x5B#8, 0x2B#8] 0 1#8).config.tapeLen := by decide
theorem witness_JnzJumpsOnANonzeroCell :
    (st copyLoop 8 0#8).tape.read 0 = 0#8 ∧ (st copyLoop 8 2#8).tape.read 0 ≠ 0#8 ∧ bwdStop copyLoop 8 = some 3 ∧
      bwdStop [0x5D#8] 0 = none ∧ (st copyLoop 8 2#8).ptr < (st copyLoop 8 2#8).config.tapeLen := by decide
theorem witness_JnzUnmatchedHalts :
    (st [0x5D#8] 0 1#8).ptr < (st [0x5D#8] 0 1#8).config.tapeLen ∧
    programInAlphabet [0x5D#8] = true ∧ (st [0x5D#8] 0 1#8).imem[(st [0x5D#8] 0 1#8).pc]? = some (encode .jnz) ∧
      (st [0x5D#8] 0 1#8).tape.read (st [0x5D#8] 0 1#8).ptr ≠ 0#8 ∧ bwdStop [0x5D#8] 0 = none := by decide
theorem witness_PointerOutsideTheTapeStops :
    (onTape 4 4 (st copyLoop 0 0#8)).config.tapeLen ≤ (onTape 4 4 (st copyLoop 0 0#8)).ptr := by decide
/-- For the closed forms of the two scans. -/
theorem witness_ScanClosedForms :
    (0 < nested.length ∧ fwdStop nested 0 = 5 ∧ balRange nested 1 5 = -1) ∧
      (5 < nested.length ∧ bwdStop nested 5 = some 0 ∧ balRange nested 0 4 = 1) ∧
      (0 < [0x5D#8].length ∧ bwdStop [0x5D#8] 0 = none) := by decide
theorem witness_BracketsMatchMutually :
    nested[0]? = some (encode .jz) ∧ fwdStop nested 0 < nested.length ∧ nested[3]? = some (encode .jnz) ∧
      bwdStop nested 3 = some 1 := by decide
theorem witness_InputArrivesInOrderThenZeros :
    (st [0x2C#8, 0x2C#8, 0x2C#8] 0 0#8).tape.wf = true ∧
      (st [0x2C#8, 0x2C#8, 0x2C#8] 0 0#8).inPos ≤ (st [0x2C#8, 0x2C#8, 0x2C#8] 0 0#8).inq.length ∧
      bytesDelivered 3 (st [0x2C#8, 0x2C#8, 0x2C#8] 0 0#8) = [0x41#8, 0x42#8, 0#8] ∧
      after State.inPos (batch 3 (st [0x2C#8, 0x2C#8, 0x2C#8] 0 0#8)) = some 2 := by decide
theorem witness_OutputCollectsTheCellsWritten :
    bytesWritten 3 (st [0x2E#8, 0x2B#8, 0x2E#8] 0 0x48#8) = [0x48#8, 0x49#8] ∧
      after State.out (batch 3 (st [0x2E#8, 0x2B#8, 0x2E#8] 0 0x48#8)) = some [0x48#8, 0x49#8] := by decide
theorem witness_StepsNeverWriteTheProgram : ∃ t, batch 2 (st copyLoop 2 0#8) = .next t := ⟨_, rfl⟩
theorem witness_OnlyTheseInstructionsWrite :
    ∃ t, step (st copyLoop 0 0#8) = .next t ∧ t.tape.read 0 ≠ (st copyLoop 0 0#8).tape.read 0 :=
  ⟨_, rfl, by decide⟩

/-- A running machine that meets the invariant. -/
theorem witness_StepKeepsTheInvariant : (st copyLoop 3 2#8).Inv where
  config_wf := by decide
  ptr_lt := by decide
  tape_wf := by decide
  tape_within := by decide
  srcMap_length := by decide
  progCap_ok := by decide
  symbols_ok := by decide
  srcMap_rising := by decide
  inPos_le := by decide
  inCap_ok := by decide
  pc_le := by decide
  pc_past := fun h => absurd h (by decide)
  outCap_ok := by decide
  stepDelay_lt := by decide
  stepsPerBatch_lt := by decide
theorem witness_StepKeepsTheInvariant_step : ∃ t, step (st copyLoop 3 2#8) = .next t := ⟨_, rfl⟩
/-- The boundary of R24 item 7: `PC = PLEN + 1` after an unmatched `JZ`. -/
theorem witness_InvariantPastTheEnd : (st [0x5B#8] 2 0#8).Inv where
  config_wf := by decide
  ptr_lt := by decide
  tape_wf := by decide
  tape_within := by decide
  srcMap_length := by decide
  progCap_ok := by decide
  symbols_ok := by decide
  srcMap_rising := by decide
  inPos_le := by decide
  inCap_ok := by decide
  pc_le := by decide
  pc_past := fun _ => ⟨0, by decide⟩
  outCap_ok := by decide
  stepDelay_lt := by decide
  stepsPerBatch_lt := by decide
theorem witness_HostOperationsKeepTheInvariant :
    ∃ t, hostOp (.load [43] [65]) (st copyLoop 3 2#8) = .next (t, .unit) := ⟨_, rfl⟩
theorem witness_ReachableStatesMeetTheInvariant : Reachable (poweredOn Config.standard 7 3) :=
  .powerOn _ _ _ (by decide) (by decide) (by decide)
/-- With `witness_StepKeepsTheInvariant`. -/
theorem witness_StepsNeverFail : (st copyLoop 3 2#8).config.outCap = none := by decide
/-- A machine stuck at `.` with a full output buffer. -/
def stuck : State := { st [0x2E#8] 0 1#8 with config := capped.config, out := [0#8], inq := [] }
theorem witness_StuckOnlyAtAFullOutputBuffer : stuck.Inv where
  config_wf := by decide
  ptr_lt := by decide
  tape_wf := by decide
  tape_within := by decide
  srcMap_length := by decide
  progCap_ok := by decide
  symbols_ok := by decide
  srcMap_rising := by decide
  inPos_le := by decide
  inCap_ok := by decide
  pc_le := by decide
  pc_past := fun h => absurd h (by decide)
  outCap_ok := by decide
  stepDelay_lt := by decide
  stepsPerBatch_lt := by decide
theorem witness_StuckOnlyAtAFullOutputBuffer_step : ∀ t, step stuck ≠ .next t := by
  intro t h
  have hf : step stuck = .fault .outputFull := rfl
  rw [hf] at h
  cases h
theorem witness_HaltingIsFinal :
    (st copyLoop 9 0#8).plen ≤ (st copyLoop 9 0#8).pc ∧ (HostOp.batch 2 ≠ .reset) ∧
      (∀ src inp, HostOp.batch 2 ≠ .load src inp) ∧
      ∃ t v, hostOp (.batch 2) (st copyLoop 9 0#8) = .next (t, v) :=
  ⟨by decide, by decide, (fun _ _ h => by cases h), _, _, rfl⟩
/-- With `witness_StuckOnlyAtAFullOutputBuffer`: a machine whose `PROG_CAP` is finite. -/
theorem witness_RegistersFitTheirWidths : pcWidth stuck.config = some 2 := by decide
theorem witness_WellNestedProgramsNeverPassTheEnd :
    ¬ malformed (st [0x5B#8, 0x5D#8] 0 0#8).imem ∧ (st [0x5B#8, 0x5D#8] 0 0#8).pc ≤ (st [0x5B#8, 0x5D#8] 0 0#8).plen ∧
      ∃ t, batch 1 (st [0x5B#8, 0x5D#8] 0 0#8) = .next t := by
  refine ⟨?_, by decide, _, rfl⟩
  rintro ⟨i, h⟩
  rcases i with _ | _ | i
  · exact absurd h (by decide)
  · exact absurd h (by decide)
  · rcases h with ⟨h, _⟩ | ⟨h, _⟩ <;> cases h
theorem witness_BatchIsRepeatedSteps : ∃ t, batch 2 (st copyLoop 0 0#8) = .next t := ⟨_, rfl⟩
theorem witness_RunToHaltStopsAtTheFirstHalt : ∃ t, runToHalt 3 (st [0x2B#8, 0x2B#8] 0 0#8) = some (.next t) := ⟨_, rfl⟩
theorem witness_AccessorsReadAndChangeNothing :
    29999 < (st copyLoop 8 0#8).config.tapeLen ∧ (st copyLoop 8 0#8).pc < (st copyLoop 8 0#8).imem.length ∧
      (st copyLoop 8 0#8).srcMap[8]? = some 8 ∧ (st copyLoop 9 0#8).imem.length ≤ (st copyLoop 9 0#8).pc := by decide
theorem witness_GetCellOutsideTheTapeIsRefused : State.reset.config.tapeLen ≤ 30000 := by decide
theorem witness_SettingsAreStored :
    2 ^ 32 - 1 < 2 ^ State.reset.config.delayW ∧ 2 ^ 32 - 1 < 2 ^ State.reset.config.batchW ∧
      2 ^ State.reset.config.delayW ≤ 2 ^ 32 ∧ 2 ^ State.reset.config.batchW ≤ 2 ^ 32 := by decide
/-- The first and last clause: `,.` with input `A`, whose cursor a default `RESET` leaves at 1. -/
theorem witness_ResetGivesBackTheLoadedStateButForTheCursor :
    ∃ u t, loadOp [44, 46] [65] State.reset = .next u ∧ batch 2 u = .next t ∧ t.inPos = 1 ∧
      u.config.resetRewindsInput = false := ⟨_, _, rfl, rfl, rfl, rfl⟩
/-- The second clause by its first case: the same run where `RESET` rewinds the input. -/
theorem witness_ResetGivesBackTheLoadedStateButForTheCursor_rewinds :
    ∃ u t, loadOp [44, 46] [65] (poweredOn { Config.standard with resetRewindsInput := true } 0 0) = .next u ∧
      batch 2 u = .next t ∧ t.inPos = 1 ∧ u.config.resetRewindsInput = true := ⟨_, _, rfl, rfl, rfl, rfl⟩
/-- The second clause by its second case: `+.` reads no input, so the cursor is 0. -/
theorem witness_ResetGivesBackTheLoadedStateButForTheCursor_unread :
    ∃ u t, loadOp [43, 46] [65] State.reset = .next u ∧ batch 2 u = .next t ∧ t.inPos = 0 := ⟨_, _, rfl, rfl, rfl⟩

end Sys2Proof.Tests
end

namespace Sys2Proof.Machine

/-! ### The loader's parse (40_load_and_loader.md R81, R85) -/

theorem parseFrom_cons_some {ch : Nat} {c : Byte} (h : symbolOfChar ch = some c) (k : Nat) (rest : List Nat) :
    parseFrom k (ch :: rest) = (c :: (parseFrom (k + 1) rest).1, k :: (parseFrom (k + 1) rest).2) := by
  rw [parseFrom, h]

theorem parseFrom_cons_none {ch : Nat} (h : symbolOfChar ch = none) (k : Nat) (rest : List Nat) :
    parseFrom k (ch :: rest) = parseFrom (k + 1) rest := by
  rw [parseFrom, h]

/-- The offsets are a selection, in order, of all the offsets of the text. -/
theorem parseFrom_snd_sublist_range' (k : Nat) (src : List Nat) :
    (parseFrom k src).2.Sublist (List.range' k src.length) := by
  induction src generalizing k with
  | nil => exact List.Sublist.slnil
  | cons ch rest ih =>
    rw [List.length_cons, List.range'_succ]
    cases h : symbolOfChar ch with
    | none =>
      rw [parseFrom_cons_none h]
      exact (ih (k + 1)).cons k
    | some c =>
      rw [parseFrom_cons_some h]
      exact (ih (k + 1)).cons_cons k

theorem parse_snd_pairwise_lt (src : List Nat) : (parse src).2.Pairwise (· < ·) :=
  List.Pairwise.sublist (parseFrom_snd_sublist_range' 0 src) List.pairwise_lt_range'

theorem parse_length (src : List Nat) : (parse src).2.length = (parse src).1.length := parseFrom_length 0 src

/-- What the loader keeps of a character and its offset: the character's symbol, if it has one, with the offset. -/
def keptSymbol (p : Nat × Nat) : Option (Byte × Nat) := (symbolOfChar p.1).map (·, p.2)

theorem keptSymbol_iff (ch o o' : Nat) (c : Byte) :
    keptSymbol (ch, o) = some (c, o') ↔ symbolOfChar ch = some c ∧ o = o' := by
  simp [keptSymbol]

/-- The sequence and the map side by side are the kept characters of the text with their offsets. -/
theorem zip_parseFrom (k : Nat) (src : List Nat) :
    (parseFrom k src).1.zip (parseFrom k src).2 = (src.zipIdx k).filterMap keptSymbol := by
  induction src generalizing k with
  | nil => rfl
  | cons ch rest ih =>
    cases h : symbolOfChar ch with
    | none => rw [parseFrom_cons_none h, ih]; simp [keptSymbol, h]
    | some c => rw [parseFrom_cons_some h, List.zip_cons_cons, ih]; simp [keptSymbol, h]

/-- A symbol stands in the sequence with an offset exactly where the text holds its glyph at that offset. -/
theorem mem_zip_parse_iff (src : List Nat) (c : Byte) (o : Nat) :
    (c, o) ∈ (parse src).1.zip (parse src).2 ↔ (∃ i, c = encode i) ∧ src[o]? = some c.toNat := by
  unfold parse
  rw [zip_parseFrom, List.mem_filterMap]
  constructor
  · rintro ⟨⟨ch, o'⟩, hmem, hkept⟩
    obtain ⟨hsym, rfl⟩ := (keptSymbol_iff ch o' o c).1 hkept
    obtain ⟨hc, rfl⟩ := (symbolOfChar_iff ch c).1 hsym
    exact ⟨hc, List.mem_zipIdx_iff_getElem?.1 hmem⟩
  · rintro ⟨hc, hsrc⟩
    exact ⟨(c.toNat, o), List.mem_zipIdx_iff_getElem?.2 hsrc,
      (keptSymbol_iff _ o o c).2 ⟨(symbolOfChar_iff _ c).2 ⟨hc, rfl⟩, rfl⟩⟩

/-- Settles O4: the sequence zipped with the map is membership for membership the text's glyphs with their offsets. -/
theorem parseKeepsExactlyTheAlphabet : Obligations.ParseKeepsExactlyTheAlphabet := by
  intro src
  refine ⟨parse_length src, ?aligned, ?onlyAlphabet, parse_snd_pairwise_lt src, ?noneMissed⟩
  case aligned =>
    intro i o c hc ho
    have hzip : ((parse src).1.zip (parse src).2)[i]? = some (c, o) := List.getElem?_zip_eq_some.2 ⟨hc, ho⟩
    exact ((mem_zip_parse_iff src c o).1 (List.mem_of_getElem? hzip)).2
  case onlyAlphabet =>
    intro c hc
    exact (inAlphabet_iff c).1 (List.all_eq_true.1 (parse_inAlphabet src) c hc)
  case noneMissed =>
    intro k i hk
    exact (List.of_mem_zip ((mem_zip_parse_iff src (encode i) k).2 ⟨⟨i, rfl⟩, hk⟩)).2

/-! ### `LOAD` (40_load_and_loader.md R80, R84) -/

/-- The state after an accepted `LOAD`, element by element: of the state before, only the parameters and the two
settings are left. -/
theorem loaded_eq (src inp : List Nat) (s : State) :
    loaded src inp s =
      { config := s.config, imem := (parse src).1, srcMap := (parse src).2, inq := convertInput s.config inp,
        inPos := 0, tape := [], ptr := 0, pc := 0, out := [], runState := .idle, pending := false,
        stepDelay := s.stepDelay, stepsPerBatch := s.stepsPerBatch } := rfl

theorem textWf_iff (c : Config) (text : List Nat) : textWf c text = true ↔ ∀ ch ∈ text, ch < 2 ^ c.charW := by
  simp [textWf]

/-- `LOAD` accepts texts made of characters that are within the capacities. -/
theorem loadOp_of_fits {src inp : List Nat} {s : State} (hsrc : textWf s.config src = true)
    (hinp : textWf s.config inp = true) (hsrcCap : withinCap s.config.srcCap src.length = true)
    (hprogCap : withinCap s.config.progCap (parse src).1.length = true)
    (hinCap : withinCap s.config.inCap inp.length = true) : loadOp src inp s = .next (loaded src inp s) := by
  simp [loadOp, hsrc, hinp, hsrcCap, hprogCap, hinCap]

/-- Settles O8: such texts pass the four checks of `LOAD`, and `loaded_eq` gives every element of the state left. -/
theorem loadReplacesProgramAndResets : Obligations.LoadReplacesProgramAndResets := by
  intro src inp s hsrc hinp hsrcCap hprogCap hinCap
  have hload : loadOp src inp s = .next (loaded src inp s) :=
    loadOp_of_fits ((textWf_iff _ _).2 hsrc) ((textWf_iff _ _).2 hinp) ((withinCap_iff _ _).2 hsrcCap)
      ((withinCap_iff _ _).2 hprogCap) ((withinCap_iff _ _).2 hinCap)
  refine ⟨loaded src inp s, ?_, loaded_eq src inp s, fun a => ?_, ?_⟩
  · rw [hostOp, hload, withResult]
  · rw [loaded_tape, Memory.read_nil, unlistedCell]
  · rw [State.plen_eq, loaded_imem]

/-- Settles O10: both the checks of `LOAD` and the state it leaves depend on the parameters and settings alone. -/
theorem loadForgetsTheEarlierRun : Obligations.LoadForgetsTheEarlierRun := by
  intro src inp s u hconfig hdelay hbatch
  have hloaded : loaded src inp s = loaded src inp u := by
    rw [loaded_eq, loaded_eq, hconfig, hdelay, hbatch]
  rw [loadOp, loadOp, hconfig, hloaded]

end Sys2Proof.Machine

namespace Sys2Proof.Machine

/-! ### `STEP` and its result (41_step_cycle.md R90 to R94) -/

/-- Below `PLEN`, in a program of the alphabet, a step performs the instruction whose code stands at `PC`. -/
theorem step_of_code {s : State} {i : Instr} (hp : programInAlphabet s.imem = true)
    (hc : s.imem[s.pc]? = some (encode i)) : step s = exec i s := by
  have hpc : s.pc < s.plen := (List.getElem?_eq_some_iff.1 hc).1
  exact step_of_fetch (Nat.not_le_of_lt hpc) ((fetch_ok_iff s i).2 ⟨hp, hc⟩)

theorem State.continues_of_halted {s : State} (h : s.halted) : s.continues = false :=
  decide_eq_false (Nat.not_lt_of_le h)

theorem hostOp_step_of_next {s t : State} (h : step s = .next t) :
    hostOp .step s = .next (t, .continues t.continues) := by
  rw [hostOp, h, withResult]

theorem haltedNoOp_eq (s : State) : haltedNoOp s = { s with runState := .idle } := rfl

theorem haltedNoOp_halted {s : State} (h : s.halted) : (haltedNoOp s).halted := h

@[simp] theorem haltedNoOp_haltedNoOp (s : State) : haltedNoOp (haltedNoOp s) = haltedNoOp s := rfl

theorem hostOp_step_of_halted {s : State} (h : s.halted) :
    hostOp .step s = .next (haltedNoOp s, .continues false) := by
  rw [hostOp_step_of_next (step_of_halted h), State.continues_of_halted (haltedNoOp_halted h)]

/-- A batch whose first step answers a state is the rest of the batch from there. -/
theorem batch_succ_of_step {s t : State} (h : step s = .next t) (n : Nat) : batch (n + 1) s = batch n t := by
  rw [batch, h]

/-- The first step of a halted machine sets `RUN_STATE`, and every further one finds it `Idle` already. -/
theorem batch_succ_of_halted {s : State} (h : s.halted) (n : Nat) : batch (n + 1) s = .next (haltedNoOp s) := by
  induction n generalizing s with
  | zero => rw [batch_succ_of_step (step_of_halted h), batch]
  | succ n ih => rw [batch_succ_of_step (step_of_halted h), ih (haltedNoOp_halted h), haltedNoOp_haltedNoOp]

/-- Settles O14, by induction on the number of further steps: `haltedNoOp` keeps the machine halted and is
idempotent. -/
theorem stepWhenHaltedOnlySetsIdle : Obligations.StepWhenHaltedOnlySetsIdle := by
  intro s h
  rw [← haltedNoOp_eq]
  exact ⟨hostOp_step_of_halted h, batch_succ_of_halted h⟩

/-- Settles O13: a symbol that decodes to `i` is the code of `i`, and below `PLEN` the fetch is total. -/
theorem stepRunsTheFetchedInstruction : Obligations.StepRunsTheFetchedInstruction := by
  refine ⟨?decoded, ?inRange⟩
  case decoded =>
    intro s c i hp hc hi
    obtain rfl : c = encode i := (decodeSymbol_ok_iff c i).1 hi
    exact step_of_code hp hc
  case inRange =>
    intro s hp hpc
    obtain ⟨i, hi⟩ := fetch_total hp hpc
    have hc : s.imem[s.pc]? = some (encode i) := ((fetch_ok_iff s i).1 hi).2
    exact ⟨i, hc, step_of_code hp hc⟩

/-- Settles O15: the result of a step is `State.continues` of the state it leaves, which is false where that state is
halted. -/
theorem stepReportsWhetherItContinues : Obligations.StepReportsWhetherItContinues := by
  intro s t h
  refine ⟨hostOp_step_of_next h, fun ht => ⟨?leaves, ?next⟩⟩
  case leaves => rw [hostOp_step_of_next h, State.continues_of_halted ht]
  case next => rw [← haltedNoOp_eq, hostOp_step_of_halted ht]

end Sys2Proof.Machine

namespace Sys2Proof.Machine

/-! ### `RIGHT` and `LEFT` (42_pointer_moves.md R100, R101) -/

/-- The decoder of the opcode table's words reads every instruction from its code. -/
theorem decodeTableWord_encode (i : Instr) : decodeTableWord 8 (encode i).toNat = some i := by
  have hword : 8 = 8 ∧ (encode i).toNat < 256 := ⟨rfl, (encode i).isLt⟩
  rw [decodeTableWord, if_pos hword, BitVec.ofNat_toNat, BitVec.setWidth_eq, decode, decodeSymbol_encode]

/-- A pointer move followed by the advance, with every other element of the state as it was. -/
theorem advance_withPtr_eq (s : State) (v : Nat) : advance (s.withPtr v) = { s with ptr := v, pc := s.pc + 1 } := rfl

theorem exec_right_eq (s : State) : exec .right s = .next { s with ptr := ptrAfterRight s, pc := s.pc + 1 } := by
  rw [exec_right, advance_withPtr_eq]

theorem exec_left_eq (s : State) : exec .left s = .next { s with ptr := ptrAfterLeft s, pc := s.pc + 1 } := by
  rw [exec_left, advance_withPtr_eq]

theorem ptrAfterRight_of_last {s : State} (h : s.ptr + 1 = s.config.tapeLen) : ptrAfterRight s = 0 := by
  rw [ptrAfterRight, h, Nat.mod_self]

theorem ptrAfterRight_of_oneCell {s : State} (h : s.config.tapeLen = 1) : ptrAfterRight s = 0 := by
  rw [ptrAfterRight, h, Nat.mod_one]

theorem ptrAfterLeft_of_zero {s : State} (hlen : 1 ≤ s.config.tapeLen) (h : s.ptr = 0) :
    ptrAfterLeft s = s.config.tapeLen - 1 := by
  rw [ptrAfterLeft, h, Nat.zero_add, Nat.mod_eq_of_lt (Nat.sub_lt hlen Nat.one_pos)]

theorem ptrAfterLeft_of_oneCell {s : State} (h : s.config.tapeLen = 1) : ptrAfterLeft s = 0 := by
  rw [ptrAfterLeft, h, Nat.mod_one]

/-- The model's subtraction on the naturals is R101's over the integers: with a cell on the tape it does not
truncate. -/
theorem ptrAfterLeft_eq_toNat_emod {s : State} (hlen : 1 ≤ s.config.tapeLen) :
    ptrAfterLeft s = (((s.ptr : Int) - 1 + s.config.tapeLen) % s.config.tapeLen).toNat := by
  have hcast : (s.ptr : Int) - 1 + s.config.tapeLen = ((s.ptr + s.config.tapeLen - 1 : Nat) : Int) := by omega
  rw [hcast, ← Int.natCast_emod, Int.toNat_natCast, ptrAfterLeft]

/-- Settles O19: `exec_right_eq`, with the value of `ptrAfterRight` at the last index and on a tape of one cell. -/
theorem rightMovesThePointer : Obligations.RightMovesThePointer := by
  refine ⟨decodeTableWord_encode .right, fun s => ⟨exec_right_eq s, fun hlast => ?last, fun hone => ?oneCell⟩⟩
  case last => rw [exec_right_eq, ptrAfterRight_of_last hlast]
  case oneCell => rw [exec_right_eq, ptrAfterRight_of_oneCell hone]

/-- Settles O20: `ptrAfterLeft` is R101's value over the integers, where adding `TAPE_LEN` does not change the
residue. -/
theorem leftMovesThePointer : Obligations.LeftMovesThePointer := by
  refine ⟨decodeTableWord_encode .left,
    fun s hlen => ⟨?pseudocode, ?residue, fun hzero => ?first, fun hone => ?oneCell⟩⟩
  case pseudocode => rw [exec_left_eq, ptrAfterLeft_eq_toNat_emod hlen]
  case residue => rw [exec_left_eq, ptrAfterLeft_eq_toNat_emod hlen, Int.add_emod_right]
  case first => rw [exec_left_eq, ptrAfterLeft_of_zero hlen hzero]
  case oneCell => rw [exec_left_eq, ptrAfterLeft_of_oneCell hone]

end Sys2Proof.Machine

namespace Sys2Proof.Machine

/-! ### `INC` and `DEC` (43_cell_arith.md R105, R106) -/

/-- A store into the current cell followed by the advance, with every other element of the state as it was. -/
theorem advance_storeCurrentCell_eq (s : State) (v : Byte) :
    advance (storeCurrentCell s v) = { s with tape := s.tape.write s.ptr v, pc := s.pc + 1 } := rfl

theorem exec_inc_eq {s : State} (h : s.ptr < s.config.tapeLen) :
    exec .inc s = .next { s with tape := s.tape.write s.ptr (incByte (s.tape.read s.ptr)), pc := s.pc + 1 } := by
  rw [exec_inc h, advance_storeCurrentCell_eq, currentCell]

theorem exec_dec_eq {s : State} (h : s.ptr < s.config.tapeLen) :
    exec .dec s = .next { s with tape := s.tape.write s.ptr (decByte (s.tape.read s.ptr)), pc := s.pc + 1 } := by
  rw [exec_dec h, advance_storeCurrentCell_eq, currentCell]

/-- The decremented byte is R106's value over the integers. -/
theorem toNat_decByte_eq_emod (v : Byte) : ((decByte v).toNat : Int) = ((v.toNat : Int) - 1 + 256) % 256 := by
  have hcast : (v.toNat : Int) - 1 + 256 = ((v.toNat + 255 : Nat) : Int) := by omega
  rw [hcast, toNat_decByte, Int.natCast_emod, Nat.cast_ofNat]

/-- Settles O21: `exec_inc_eq`, read at the current cell and at every other one. -/
theorem incAddsOneModulo256 : Obligations.IncAddsOneModulo256 := by
  refine ⟨decodeTableWord_encode .inc, fun s hptr hwf => ⟨_, exec_inc_eq hptr, ?cell, fun a ha => ?others, rfl⟩⟩
  case cell => rw [Memory.read_write_same hwf, toNat_incByte]
  case others => exact Memory.read_write_other hwf ha _

/-- Settles O22: `exec_dec_eq`, read at the current cell and at every other one. -/
theorem decSubtractsOneModulo256 : Obligations.DecSubtractsOneModulo256 := by
  refine ⟨decodeTableWord_encode .dec, fun s hptr hwf => ⟨_, exec_dec_eq hptr, ?cell, fun a ha => ?others, rfl⟩⟩
  case cell => rw [Memory.read_write_same hwf, toNat_decByte_eq_emod]
  case others => exact Memory.read_write_other hwf ha _

end Sys2Proof.Machine

namespace Sys2Proof.Machine

/-! ### `IN` (44_io.md R111) -/

theorem nextInput_of_getElem? {s : State} {b : Byte} (h : s.inq[s.inPos]? = some b) : nextInput s = b := by
  rw [nextInput, h, Option.getD_some]

theorem nextInput_at_end {s : State} (h : s.inq.length ≤ s.inPos) : nextInput s = 0#8 := by
  rw [nextInput, List.getElem?_eq_none h, Option.getD_none]

theorem inPosAfterRead_of_getElem? {s : State} {b : Byte} (h : s.inq[s.inPos]? = some b) :
    inPosAfterRead s = s.inPos + 1 :=
  if_pos (List.getElem?_eq_some_iff.1 h).1

theorem inPosAfterRead_at_end {s : State} (h : s.inq.length ≤ s.inPos) : inPosAfterRead s = s.inPos :=
  if_neg (Nat.not_lt_of_le h)

/-- A store into the current cell, the move of the input cursor and the advance, with every other element of the state
as it was. -/
theorem advance_withInPos_storeCurrentCell_eq (s : State) (v : Byte) (p : Nat) :
    advance ((storeCurrentCell s v).withInPos p) =
      { s with tape := s.tape.write s.ptr v, inPos := p, pc := s.pc + 1 } := rfl

theorem exec_inp_eq {s : State} (h : s.ptr < s.config.tapeLen) :
    exec .inp s =
      .next { s with tape := s.tape.write s.ptr (nextInput s), inPos := inPosAfterRead s, pc := s.pc + 1 } := by
  rw [exec_inp h, advance_withInPos_storeCurrentCell_eq]

/-- Settles O25: `exec_inp_eq`, with the byte and the cursor of the read while there is input and at its end, and the
tape read at the current cell and at every other one. -/
theorem inReadsTheNextByteOrZero : Obligations.InReadsTheNextByteOrZero := by
  refine ⟨decodeTableWord_encode .inp, fun s hptr hwf =>
    ⟨_, exec_inp_eq hptr, fun b hb => ⟨?byte, inPosAfterRead_of_getElem? hb⟩,
      fun hend => ⟨?zero, inPosAfterRead_at_end hend⟩, fun a ha => ?others, rfl⟩⟩
  case byte => rw [Memory.read_write_same hwf, nextInput_of_getElem? hb]
  case zero => rw [Memory.read_write_same hwf, nextInput_at_end hend]
  case others => exact Memory.read_write_other hwf ha _

end Sys2Proof.Machine

namespace Sys2Proof.Machine

/-! ### `JZ` (45_jumps.md R116 to R118) -/

/-- A jump followed by the advance, with every other element of the state as it was. -/
theorem advance_withPc_eq (s : State) (v : Nat) : advance (s.withPc v) = { s with pc := v + 1 } := rfl

theorem advance_eq (s : State) : advance s = { s with pc := s.pc + 1 } := rfl

theorem exec_jz_of_zero {s : State} (h : s.ptr < s.config.tapeLen) (hz : s.tape.read s.ptr = 0#8) :
    exec .jz s = .next { s with pc := fwdStop s.imem s.pc + 1 } := by
  rw [exec_jz h, currentCell, if_pos ((isZeroByte_iff _).2 hz), advance_withPc_eq]

theorem exec_jz_of_ne_zero {s : State} (h : s.ptr < s.config.tapeLen) (hz : s.tape.read s.ptr ≠ 0#8) :
    exec .jz s = .next { s with pc := s.pc + 1 } := by
  rw [exec_jz h, currentCell, if_neg (mt (isZeroByte_iff _).1 hz), advance_eq]

/-- Settles O26: on a zero cell the value before the advance is `FwdStop(PC)`, on any other it is `PC`. -/
theorem jzJumpsOnAZeroCell : Obligations.JzJumpsOnAZeroCell := by
  refine ⟨decodeTableWord_encode .jz, fun s hptr => ?_⟩
  by_cases hz : s.tape.read s.ptr = 0#8
  · rw [exec_jz_of_zero hptr hz, if_pos hz]
  · rw [exec_jz_of_ne_zero hptr hz, if_neg hz]

/-- Settles O27: the fetched `JZ` runs by `exec_jz_of_zero` or `exec_jz_of_ne_zero`, and a forward scan that stops below
`PLEN` has stopped past the `JZ`, at a `JNZ`. -/
theorem jzOrdinaryCases : Obligations.JzOrdinaryCases := by
  intro s hptr hp hc
  have hstep : step s = exec .jz s := step_of_code hp hc
  refine ⟨fun hz => ?notTaken, fun hz hmatched => ?taken⟩
  case notTaken => exact hostOp_step_of_next (hstep.trans (exec_jz_of_ne_zero hptr hz))
  case taken =>
    have hpc : s.pc < s.imem.length := (List.getElem?_eq_some_iff.1 hc).1
    obtain ⟨hpast, -, hjnz⟩ := (fwdStop_spec hpc).resolve_left (Nat.ne_of_lt hmatched)
    exact ⟨hjnz, hpast, hostOp_step_of_next (hstep.trans (exec_jz_of_zero hptr hz))⟩

/-- Settles O28: with `FwdStop(PC) = PLEN` the advance leaves `PC` one past `PLEN`, where the machine is halted. -/
theorem jzUnmatchedHaltsPastTheEnd : Obligations.JzUnmatchedHaltsPastTheEnd := by
  intro s hptr hp hc hunmatched
  have hstep : step s = exec .jz s := step_of_code hp hc
  refine ⟨fun hz => ?taken, fun hz => hstep.trans (exec_jz_of_ne_zero hptr hz)⟩
  case taken =>
    have hhalted : ({ s with pc := s.imem.length + 1 } : State).halted := Nat.le_succ s.imem.length
    have hjump : step s = .next { s with pc := s.imem.length + 1 } := by
      rw [hstep, exec_jz_of_zero hptr hz, hunmatched]
    exact ⟨by rw [hostOp_step_of_next hjump, State.continues_of_halted hhalted], hhalted⟩

end Sys2Proof.Machine

namespace Sys2Proof.Machine

/-! ### The accessors (46_host_interface.md R126) -/

theorem getCell_of_lt {s : State} {i : Nat} (h : i < s.config.tapeLen) :
    getCell i s = answer s (.byte (s.tape.read i)) := if_pos h

theorem srcOffset_of_lt {s : State} (h : s.pc < s.plen) : srcOffset s = s.srcMap[s.pc]? := if_pos h

theorem srcOffset_of_halted {s : State} (h : s.halted) : srcOffset s = none := if_neg (Nat.not_lt_of_le h)

theorem hostOp_getSrcOffset (s : State) : hostOp .getSrcOffset s = .next (s, .offset (srcOffset s)) := rfl

/-- Settles O53: each accessor is an `answer` from the state as it is; what it answers depends on the state for
`GET_CELL`, by the bound on the index, and for `GET_SRC_OFFSET`, by whether the machine is halted. -/
theorem accessorsReadAndChangeNothing : Obligations.AccessorsReadAndChangeNothing := by
  intro s
  refine ⟨rfl, fun i hi => ?cell, rfl, rfl, rfl, fun o hpc ho => ?offset, fun hhalted => ?noOffset⟩
  case cell => exact getCell_of_lt hi
  case offset => rw [hostOp_getSrcOffset, srcOffset_of_lt hpc, ho]
  case noOffset => rw [hostOp_getSrcOffset, srcOffset_of_halted hhalted]

end Sys2Proof.Machine

namespace Sys2Proof.Machine

/-! ### `RESET` (70_reset_and_hazards.md R155) -/

theorem hostOp_reset (s : State) : hostOp .reset s = .next (resetOp s, .unit) := rfl

/-- The state after a `RESET`, with every other element of the state as it was. -/
theorem resetOp_eq (s : State) :
    resetOp s =
      { s with tape := [], ptr := 0, pc := 0, out := [], pending := false, runState := .idle,
               inPos := if s.config.resetRewindsInput then 0 else s.inPos } := rfl

/-- A second `RESET` changes nothing: the cursor alone depends on the parameter, and either value leaves it as it is. -/
theorem resetOp_resetOp (s : State) : resetOp (resetOp s) = resetOp s := by
  cases hrewinds : s.config.resetRewindsInput with
  | false => simp [resetOp_eq, hrewinds]
  | true => simp [resetOp_eq, hrewinds]

/-- Settles O11: `resetOp_eq` gives every element of the state left, whose tape lists no cell, and `resetOp_resetOp` the
second `RESET`. -/
theorem resetRestoresTheInitialState : Obligations.ResetRestoresTheInitialState := by
  intro s
  refine ⟨resetOp s, hostOp_reset s, resetOp_eq s, fun a => ?zeroTape, ?again⟩
  case zeroTape => rw [resetOp_tape, Memory.read_nil, unlistedCell]
  case again => rw [hostOp_reset, resetOp_resetOp]

end Sys2Proof.Machine

namespace Sys2Proof.Machine

/-! ### What an instruction leaves, element by element (41_step_cycle.md R92, R93) -/

/-- The byte the instruction stores into the current cell, `none` where it stores nothing. -/
def byteStored : Instr → State → Option Byte
  | .inc, s => some (incByte (currentCell s))
  | .dec, s => some (decByte (currentCell s))
  | .inp, s => some (nextInput s)
  | _, _ => none

/-- `TAPE` after the instruction. -/
def tapeAfter (i : Instr) (s : State) : Memory :=
  match byteStored i s with
  | some v => s.tape.write s.ptr v
  | none => s.tape

/-- `PTR` after the instruction. -/
def ptrAfter : Instr → State → Nat
  | .right, s => ptrAfterRight s
  | .left, s => ptrAfterLeft s
  | _, s => s.ptr

/-- `IN_POS` after the instruction. -/
def inPosAfter : Instr → State → Nat
  | .inp, s => inPosAfterRead s
  | _, s => s.inPos

/-- `OUT` after the instruction. -/
def outAfter : Instr → State → List Byte
  | .out, s => s.out ++ [currentCell s]
  | _, s => s.out

/-- `PC` after the instruction, its advance included. -/
def pcAfter : Instr → State → Nat
  | .jz, s => if currentCell s = 0#8 then fwdStop s.imem s.pc + 1 else s.pc + 1
  | .jnz, s => if currentCell s = 0#8 then s.pc + 1 else pcAfterJnz s
  | _, s => s.pc + 1

/-- The state an instruction leaves where it does not stop: no instruction writes any other element. -/
def performed (i : Instr) (s : State) : State :=
  { s with
    tape := tapeAfter i s, ptr := ptrAfter i s, inPos := inPosAfter i s, out := outAfter i s, pc := pcAfter i s }

section performed
variable (i : Instr) (s : State)
@[simp] theorem performed_inPos : (performed i s).inPos = inPosAfter i s := rfl
@[simp] theorem performed_out : (performed i s).out = outAfter i s := rfl
@[simp] theorem performed_pc : (performed i s).pc = pcAfter i s := rfl
end performed

/-! The tape after an instruction. -/

theorem tapeAfter_of_none {i : Instr} {s : State} (h : byteStored i s = none) : tapeAfter i s = s.tape := by
  rw [tapeAfter, h]

theorem tapeAfter_of_some {i : Instr} {s : State} {v : Byte} (h : byteStored i s = some v) :
    tapeAfter i s = s.tape.write s.ptr v := by
  rw [tapeAfter, h]

theorem tapeAfter_wf {s : State} (h : s.tape.wf = true) (i : Instr) : (tapeAfter i s).wf = true := by
  cases hv : byteStored i s with
  | none => rw [tapeAfter_of_none hv, h]
  | some v => rw [tapeAfter_of_some hv, Memory.wf_write h]

theorem tapeAfter_within {s : State} (h : s.tape.within s.config.tapeLen = true) (hptr : s.ptr < s.config.tapeLen)
    (i : Instr) : (tapeAfter i s).within s.config.tapeLen = true := by
  cases hv : byteStored i s with
  | none => rw [tapeAfter_of_none hv, h]
  | some v => rw [tapeAfter_of_some hv, Memory.within_write h hptr]

/-- All but the two pointer moves use the current cell. -/
def usesCell : Instr → Bool
  | .right | .left => false
  | _ => true

/-- The instruction is an `OUT` that finds the buffer at a finite `OUT_CAP` (D3). -/
def bufferFull (i : Instr) (s : State) : Bool := i == .out && !outputHasRoom s

theorem exec_jnz_of_zero {s : State} (h : s.ptr < s.config.tapeLen) (hz : s.tape.read s.ptr = 0#8) :
    exec .jnz s = .next { s with pc := s.pc + 1 } := by
  rw [exec_jnz h, currentCell, if_pos ((isZeroByte_iff _).2 hz), advance_eq]

theorem exec_jnz_of_ne_zero {s : State} (h : s.ptr < s.config.tapeLen) (hz : s.tape.read s.ptr ≠ 0#8) :
    exec .jnz s = .next { s with pc := pcAfterJnz s } := by
  rw [exec_jnz h, currentCell, if_neg (mt (isZeroByte_iff _).1 hz), State.withPc]

theorem bufferFull_iff (i : Instr) (s : State) : bufferFull i s = true ↔ i = .out ∧ outputHasRoom s = false := by
  simp [bufferFull]

/-- Where the current cell exists an instruction answers what `performed` says, but for an `OUT` at a full buffer. -/
theorem exec_of_ptr_lt {s : State} (hptr : s.ptr < s.config.tapeLen) (i : Instr) :
    exec i s = if bufferFull i s then .fault .outputFull else .next (performed i s) := by
  cases i with
  | right => rfl
  | left => rfl
  | inc => exact exec_inc hptr
  | dec => exact exec_dec hptr
  | inp => exact exec_inp hptr
  | out =>
    rw [exec_out hptr, bufferFull]
    cases outputHasRoom s with
    | false => rfl
    | true => rfl
  | jz =>
    change exec .jz s = .next { s with pc := pcAfter .jz s }
    by_cases hz : s.tape.read s.ptr = 0#8
    · rw [exec_jz_of_zero hptr hz, pcAfter, currentCell, if_pos hz]
    · rw [exec_jz_of_ne_zero hptr hz, pcAfter, currentCell, if_neg hz]
  | jnz =>
    change exec .jnz s = .next { s with pc := pcAfter .jnz s }
    by_cases hz : s.tape.read s.ptr = 0#8
    · rw [exec_jnz_of_zero hptr hz, pcAfter, currentCell, if_pos hz]
    · rw [exec_jnz_of_ne_zero hptr hz, pcAfter, currentCell, if_neg hz]

/-- Where it does not exist the instructions that use it stop (log entry 9). -/
theorem exec_of_ptr_ge {s : State} (hptr : s.config.tapeLen ≤ s.ptr) (i : Instr) :
    exec i s = if usesCell i then .fault .cellOutOfRange else .next (performed i s) := by
  cases i with
  | right => rfl
  | left => rfl
  | _ => exact ifCellExists_neg (Nat.not_lt_of_le hptr) _

/-- What `exec` has done when it answers a state. -/
theorem exec_next {i : Instr} {s t : State} (h : exec i s = .next t) : t = performed i s ∧ bufferFull i s = false := by
  by_cases hptr : s.ptr < s.config.tapeLen
  case pos =>
    rw [exec_of_ptr_lt hptr] at h
    cases hfull : bufferFull i s with
    | true => rw [hfull] at h; cases h
    | false => rw [hfull] at h; cases h; exact ⟨rfl, rfl⟩
  case neg =>
    rw [exec_of_ptr_ge (Nat.le_of_not_lt hptr)] at h
    cases i with
    | right => cases h; exact ⟨rfl, rfl⟩
    | left => cases h; exact ⟨rfl, rfl⟩
    | _ => cases h

/-- What a step has done when it answers a state: the halted no-op, or one instruction of a program of the alphabet. -/
theorem step_next {s t : State} (h : step s = .next t) :
    (s.halted ∧ t = haltedNoOp s) ∨
    (programInAlphabet s.imem = true ∧
      ∃ i, s.imem[s.pc]? = some (encode i) ∧ t = performed i s ∧ bufferFull i s = false) := by
  obtain hhalted | ⟨-, hp, i, hc, hexec⟩ := step_cases h
  · exact .inl hhalted
  · exact .inr ⟨hp, i, hc, exec_next hexec⟩

end Sys2Proof.Machine

namespace Sys2Proof.Machine

/-! ### Batches (41_step_cycle.md R96) -/

/-- What every step keeps, a batch keeps. -/
theorem batch_keeps {P : State → Prop} (hstep : ∀ s t, P s → step s = .next t → P t) {n : Nat} {s t : State}
    (hs : P s) (h : batch n s = .next t) : P t := by
  induction n generalizing s with
  | zero => cases h; exact hs
  | succ n ih =>
    obtain ⟨u, hu, hrest⟩ := batch_succ h
    exact ih (hstep s u hs hu) hrest

/-- A machine that is not halted has a symbol at `PC`. -/
theorem getElem?_pc_of_halted {s : State} (h : s.halted) : s.imem[s.pc]? = none := List.getElem?_eq_none h

/-! ### The streams over a run (44_io.md R112) -/

theorem bytesWritten_succ {s t : State} (h : step s = .next t) (n : Nat) :
    bytesWritten (n + 1) s =
      (if s.imem[s.pc]? = some (encode .out) then [currentCell s] else []) ++ bytesWritten n t := by
  rw [bytesWritten, h]

theorem bytesDelivered_succ {s t : State} (h : step s = .next t) (n : Nat) :
    bytesDelivered (n + 1) s =
      (if s.imem[s.pc]? = some (encode .inp) then [currentCell t] else []) ++ bytesDelivered n t := by
  rw [bytesDelivered, h]

/-- One step appends the current cell to the output if it finds an `OUT`, and nothing else. -/
theorem step_out {s t : State} (h : step s = .next t) :
    t.out = s.out ++ if s.imem[s.pc]? = some (encode .out) then [currentCell s] else [] := by
  obtain ⟨hhalted, rfl⟩ | ⟨-, i, hc, rfl, -⟩ := step_next h
  · simp [getElem?_pc_of_halted hhalted]
  · cases i <;> simp [hc, outAfter]

/-- Settles O38, by induction on the number of steps: each appends what `step_out` says. -/
theorem outputCollectsTheCellsWritten : Obligations.OutputCollectsTheCellsWritten := by
  intro n
  induction n with
  | zero =>
    intro s t h
    cases h
    exact (List.append_nil _).symm
  | succ n ih =>
    intro s t h
    obtain ⟨u, hu, hrest⟩ := batch_succ h
    rw [ih u t hrest, step_out hu, bytesWritten_succ hu, List.append_assoc]

/-- The input byte at a position of the queue, 0 past its end. -/
def inputAt (q : List Byte) (p : Nat) : Byte := (q[p]?).getD 0#8

theorem nextInput_eq (s : State) : nextInput s = inputAt s.inq s.inPos := rfl

/-- Past the end of the queue every position reads alike, so a cursor that stays at the end reads the same zeros as one
that goes on. -/
theorem inputAt_min_length (q : List Byte) (p k : Nat) : inputAt q (min p q.length + k) = inputAt q (p + k) := by
  obtain hp | hp := Nat.le_total p q.length
  · rw [Nat.min_eq_left hp]
  · rw [Nat.min_eq_right hp, inputAt, inputAt, List.getElem?_eq_none (Nat.le_add_right _ _),
      List.getElem?_eq_none (by omega)]

/-- The cursor after a read is one further, up to the end of the queue. -/
theorem inPosAfterRead_eq_min {s : State} (h : s.inPos ≤ s.inq.length) :
    inPosAfterRead s = min (s.inPos + 1) s.inq.length := by
  rw [inPosAfterRead]
  split <;> omega

/-- One step with the cursor in the queue: an `IN` leaves the byte at the cursor in the current cell and moves the
cursor, no other step does. -/
theorem step_input {s t : State} (hwf : s.tape.wf = true) (hpos : s.inPos ≤ s.inq.length) (h : step s = .next t) :
    t.tape.wf = true ∧ t.inq = s.inq ∧
      if s.imem[s.pc]? = some (encode .inp)
        then currentCell t = inputAt s.inq s.inPos ∧ t.inPos = min (s.inPos + 1) s.inq.length
        else t.inPos = s.inPos := by
  obtain ⟨hhalted, rfl⟩ | ⟨-, i, hc, rfl, -⟩ := step_next h
  · simp [getElem?_pc_of_halted hhalted, hwf]
  · refine ⟨tapeAfter_wf hwf i, rfl, ?_⟩
    cases i with
    | inp =>
      rw [if_pos hc]
      exact ⟨(Memory.read_write_same hwf _ _).trans (nextInput_eq s), inPosAfterRead_eq_min hpos⟩
    | _ => simp [hc, inPosAfter]

/-- Settles O37, by induction on the number of steps: `step_input` gives the first byte, and past the end of the queue
the cursor stays where every position reads 0. -/
theorem inputArrivesInOrderThenZeros : Obligations.InputArrivesInOrderThenZeros := by
  intro n
  induction n with
  | zero =>
    intro s t _ hpos h
    cases h
    exact ⟨fun k hk => absurd hk (Nat.not_lt_zero k), (Nat.min_eq_left hpos).symm, rfl⟩
  | succ n ih =>
    intro s t hwf hpos h
    obtain ⟨u, hu, hrest⟩ := batch_succ h
    obtain ⟨huwf, huinq, hread⟩ := step_input hwf hpos hu
    rw [bytesDelivered_succ hu]
    by_cases hinp : s.imem[s.pc]? = some (encode .inp)
    case pos =>
      rw [if_pos hinp] at hread ⊢
      obtain ⟨hbyte, hcursor⟩ := hread
      obtain ⟨hbytes, hend, hinq⟩ := ih u t huwf (by rw [hcursor, huinq]; exact Nat.min_le_right _ _) hrest
      rw [huinq, hcursor] at hend hbytes
      refine ⟨fun k hk => ?_, ?_, hinq.trans huinq⟩
      · cases k with
        | zero => exact congrArg some hbyte
        | succ k =>
          refine (hbytes k (Nat.lt_of_succ_lt_succ hk)).trans (congrArg some ?_)
          exact (inputAt_min_length s.inq (s.inPos + 1) k).trans (congrArg (inputAt s.inq) (by omega))
      · rw [hend, List.length_append, List.length_singleton]
        omega
    case neg =>
      rw [if_neg hinp] at hread ⊢
      obtain ⟨hbytes, hend, hinq⟩ := ih u t huwf (by rw [hread, huinq]; exact hpos) hrest
      rw [huinq, hread] at hend hbytes
      exact ⟨hbytes, hend, hinq.trans huinq⟩

/-! ### What a step does not write or read (41_step_cycle.md, 20_memory.md, 10_state.md) -/

/-- The elements that no step writes, everything else set to one value: two states with the same program, map, input
bytes, `PENDING`, settings and parameters have the same. -/
def unwrittenPart (s : State) : State :=
  { s with tape := [], ptr := 0, inPos := 0, out := [], pc := 0, runState := .idle }

theorem step_unwrittenPart {s t : State} (h : step s = .next t) : unwrittenPart t = unwrittenPart s := by
  obtain ⟨-, rfl⟩ | ⟨-, i, -, rfl, -⟩ := step_next h
  · rfl
  · rfl

theorem batch_unwrittenPart {n : Nat} {s t : State} (h : batch n s = .next t) : unwrittenPart t = unwrittenPart s :=
  batch_keeps (P := fun u => unwrittenPart u = unwrittenPart s)
    (fun _ _ hu hstep => (step_unwrittenPart hstep).trans hu) rfl h

theorem step_runState {s t : State} (h : step s = .next t) :
    t.runState = if s.plen ≤ s.pc then .idle else s.runState := by
  obtain ⟨hhalted, rfl⟩ | ⟨-, i, hc, rfl, -⟩ := step_next h
  · exact (if_pos hhalted).symm
  · exact (if_neg (Nat.not_le_of_lt (List.getElem?_eq_some_iff.1 hc).1)).symm

/-- Settles O39: a batch keeps `unwrittenPart`, which holds each of the elements as it is. -/
theorem stepsNeverWriteTheProgram : Obligations.StepsNeverWriteTheProgram := by
  refine ⟨fun n s t h => ?_, fun s t h => step_runState h⟩
  simpa [unwrittenPart] using batch_unwrittenPart h

theorem move_of_ptrAfter_ne {i : Instr} {s : State} (h : ptrAfter i s ≠ s.ptr) : i = .right ∨ i = .left := by
  cases i with
  | right => exact .inl rfl
  | left => exact .inr rfl
  | _ => exact absurd rfl h

theorem store_of_byteStored {i : Instr} {s : State} {v : Byte} (h : byteStored i s = some v) :
    i = .inc ∨ i = .dec ∨ i = .inp := by
  cases i with
  | inc => exact .inl rfl
  | dec => exact .inr (.inl rfl)
  | inp => exact .inr (.inr rfl)
  | _ => cases h

/-- An instruction changes a cell only by a store, and then the current one. -/
theorem store_of_read_tapeAfter_ne {i : Instr} {s : State} {a : Nat} (hwf : s.tape.wf = true)
    (h : (tapeAfter i s).read a ≠ s.tape.read a) : a = s.ptr ∧ (i = .inc ∨ i = .dec ∨ i = .inp) := by
  cases hv : byteStored i s with
  | none => exact absurd (by rw [tapeAfter_of_none hv]) h
  | some v =>
    rw [tapeAfter_of_some hv] at h
    exact ⟨Classical.byContradiction fun ha => h (Memory.read_write_other hwf ha v), store_of_byteStored hv⟩

theorem inp_of_inPosAfter_ne {i : Instr} {s : State} (h : inPosAfter i s ≠ s.inPos) :
    i = .inp ∧ inPosAfter i s = s.inPos + 1 := by
  cases i with
  | inp =>
    refine ⟨rfl, if_pos (Classical.byContradiction fun hend => h ?_)⟩
    exact inPosAfterRead_at_end (Nat.le_of_not_lt hend)
  | _ => exact absurd rfl h

theorem out_of_outAfter_ne {i : Instr} {s : State} (h : outAfter i s ≠ s.out) :
    i = .out ∧ outAfter i s = s.out ++ [s.tape.read s.ptr] := by
  cases i with
  | out => exact ⟨rfl, rfl⟩
  | _ => exact absurd rfl h

/-- Settles O40: a halted step changes none of the four, and an instruction changes each by the lemma above that
names it. -/
theorem onlyTheseInstructionsWrite : Obligations.OnlyTheseInstructionsWrite := by
  intro s t hwf h
  obtain ⟨-, rfl⟩ | ⟨-, i, hc, rfl, -⟩ := step_next h
  case inl => exact ⟨absurd rfl, fun a => absurd rfl, absurd rfl, absurd rfl⟩
  case inr =>
    have hsymbol : ∀ {j}, i = j → s.imem[s.pc]? = some (encode j) := fun hij => hij ▸ hc
    refine ⟨fun hne => ?ptr, fun a hne => ?cell, fun hne => ?cursor, fun hne => ?output⟩
    case ptr => exact (move_of_ptrAfter_ne hne).imp hsymbol hsymbol
    case cell =>
      exact (store_of_read_tapeAfter_ne hwf hne).imp_right (.imp hsymbol (.imp hsymbol hsymbol))
    case cursor => exact (inp_of_inPosAfter_ne hne).imp_left hsymbol
    case output => exact (out_of_outAfter_ne hne).imp_left hsymbol

/-- `SRCMAP`, `RUN_STATE`, `PENDING` and the two settings replaced. -/
def withHostRegisters (m : List Nat) (r : RunState) (p : Bool) (d b : Nat) (s : State) : State :=
  { s with srcMap := m, runState := r, pending := p, stepDelay := d, stepsPerBatch := b }

theorem performed_withHostRegisters (i : Instr) (s : State) (m : List Nat) (r : RunState) (p : Bool) (d b : Nat) :
    performed i (withHostRegisters m r p d b s) = withHostRegisters m r p d b (performed i s) := by
  cases i <;> rfl

/-- Instructions do not see the host's registers: they stop alike and leave the same state but for them. -/
theorem exec_withHostRegisters (i : Instr) (s : State) (m : List Nat) (r : RunState) (p : Bool) (d b : Nat) :
    exec i (withHostRegisters m r p d b s) =
      match exec i s with
      | .next t => .next (withHostRegisters m r p d b t)
      | .fault f => .fault f
      | .refused x => .refused x := by
  by_cases hptr : s.ptr < s.config.tapeLen
  case pos =>
    rw [exec_of_ptr_lt hptr, exec_of_ptr_lt (s := withHostRegisters m r p d b s) hptr]
    change (if bufferFull i s then _ else _) = _
    cases bufferFull i s with
    | true => rfl
    | false => exact congrArg Host.Outcome.next (performed_withHostRegisters i s m r p d b)
  case neg =>
    rw [exec_of_ptr_ge (Nat.le_of_not_lt hptr),
      exec_of_ptr_ge (s := withHostRegisters m r p d b s) (Nat.le_of_not_lt hptr)]
    cases usesCell i with
    | true => rfl
    | false => exact congrArg Host.Outcome.next (performed_withHostRegisters i s m r p d b)

theorem step_of_fetch_error {s : State} {x : Refusal} (h : ¬ s.halted) (hf : fetch s = .error x) :
    step s = .refused x := by
  rw [step, if_neg h, hf]

/-- Settles O41: the halt test and the fetch read `PC` and `IMEM` only, and `exec_withHostRegisters` does the rest. -/
theorem stepIgnoresTheHostsRegisters : Obligations.StepIgnoresTheHostsRegisters := by
  intro s m r p d b
  change step (withHostRegisters m r p d b s) = _
  by_cases hhalted : s.halted
  case pos =>
    rw [step_of_halted hhalted, step_of_halted (s := withHostRegisters m r p d b s) hhalted]
    simp only [if_pos hhalted]
    rfl
  case neg =>
    simp only [if_neg hhalted]
    cases hf : fetch s with
    | error x =>
      rw [step_of_fetch_error hhalted hf, step_of_fetch_error (s := withHostRegisters m r p d b s) hhalted hf]
    | ok i =>
      rw [step_of_fetch hhalted hf, step_of_fetch (s := withHostRegisters m r p d b s) hhalted hf,
        exec_withHostRegisters]
      cases hexec : exec i s with
      | next t => rw [(exec_next hexec).1]; rfl
      | fault f => rfl
      | refused x => rfl

end Sys2Proof.Machine

namespace Sys2Proof.Machine

/-! ### Where an instruction leaves `PTR`, `PC` and the streams (10_state.md R24) -/

theorem ptrAfter_lt {s : State} (h : s.ptr < s.config.tapeLen) (i : Instr) : ptrAfter i s < s.config.tapeLen := by
  have hlen : 0 < s.config.tapeLen := Nat.zero_lt_of_lt h
  cases i with
  | right => exact ptrAfterRight_lt hlen
  | left => exact ptrAfterLeft_lt hlen
  | _ => exact h

theorem inPosAfter_le {s : State} (h : s.inPos ≤ s.inq.length) (i : Instr) : inPosAfter i s ≤ s.inq.length := by
  cases i with
  | inp => exact (inPosAfterRead_eq_min h).trans_le (Nat.min_le_right _ _)
  | _ => exact h

/-- The check of the full buffer keeps the output within `OUT_CAP`. -/
theorem outAfter_withinCap {i : Instr} {s : State} (h : withinCap s.config.outCap s.out.length = true)
    (hroom : bufferFull i s = false) : withinCap s.config.outCap (outAfter i s).length = true := by
  cases i with
  | out => simpa [bufferFull, outputHasRoom, outAfter] using hroom
  | _ => exact h

theorem pcAfterJnz_of_some {s : State} {j : Nat} (h : bwdStop s.imem s.pc = some j) : pcAfterJnz s = j + 1 := by
  rw [pcAfterJnz, h]

theorem pcAfterJnz_of_none {s : State} (h : bwdStop s.imem s.pc = none) : pcAfterJnz s = s.imem.length := by
  rw [pcAfterJnz, h]

theorem pcAfterJnz_le {s : State} (h : s.pc < s.imem.length) : pcAfterJnz s ≤ s.imem.length := by
  cases hb : bwdStop s.imem s.pc with
  | none => exact (pcAfterJnz_of_none hb).le
  | some j =>
    have hj : j < s.pc := (bwdStop_spec hb).1
    rw [pcAfterJnz_of_some hb]
    omega

/-- An instruction of the program takes `PC` to `PLEN` at most, but for a `JZ` on a zero cell whose scan runs off the
end. -/
theorem pcAfter_le {s : State} (h : s.pc < s.imem.length) (i : Instr) :
    pcAfter i s ≤ s.imem.length ∨
      (i = .jz ∧ fwdStop s.imem s.pc = s.imem.length ∧ pcAfter i s = s.imem.length + 1) := by
  cases i with
  | jz =>
    rw [pcAfter]
    split
    · obtain hoff | ⟨-, hstop, -⟩ := fwdStop_spec h
      · exact .inr ⟨rfl, hoff, by rw [hoff]⟩
      · exact .inl hstop
    · exact .inl h
  | jnz =>
    rw [pcAfter]
    split
    · exact .inl h
    · exact .inl (pcAfterJnz_le h)
  | _ => exact .inl h

/-! ### The invariant of 10_state.md R24 -/

/-- The invariant does not speak of `RUN_STATE` and `PENDING`, and of the settings it asks that they fit. -/
theorem State.Inv.withHostRegisters {s : State} (h : s.Inv) (r : RunState) (p : Bool) {d b : Nat}
    (hd : d < 2 ^ s.config.delayW) (hb : b < 2 ^ s.config.batchW) : (withHostRegisters s.srcMap r p d b s).Inv :=
  { h with stepDelay_lt := hd, stepsPerBatch_lt := hb }

theorem State.Inv.haltedNoOp {s : State} (h : s.Inv) : (haltedNoOp s).Inv :=
  h.withHostRegisters .idle s.pending h.stepDelay_lt h.stepsPerBatch_lt

/-- An instruction of the program keeps the invariant. -/
theorem State.Inv.performed {s : State} {i : Instr} (h : s.Inv) (hc : s.imem[s.pc]? = some (encode i))
    (hroom : bufferFull i s = false) : (performed i s).Inv := by
  have hpc : s.pc < s.imem.length := (List.getElem?_eq_some_iff.1 hc).1
  have hpcAfter := pcAfter_le hpc i
  refine { h with
    ptr_lt := ptrAfter_lt h.ptr_lt i, tape_wf := tapeAfter_wf h.tape_wf i
    tape_within := tapeAfter_within h.tape_within h.ptr_lt i, inPos_le := inPosAfter_le h.inPos_le i
    outCap_ok := outAfter_withinCap h.outCap_ok hroom, pc_le := ?bound, pc_past := fun hpast => ?past }
  case bound =>
    change pcAfter i s ≤ s.imem.length + 1
    omega
  case past =>
    change pcAfter i s = s.imem.length + 1 at hpast
    obtain hle | ⟨rfl, hoff, -⟩ := hpcAfter
    · omega
    · exact ⟨s.pc, hc, hoff⟩

/-- Settles O43: `step_next` gives the halted no-op, which writes `RUN_STATE` only, or one instruction. -/
theorem stepKeepsTheInvariant : Obligations.StepKeepsTheInvariant := by
  intro s t hs h
  obtain ⟨-, rfl⟩ | ⟨-, i, hc, rfl, hroom⟩ := step_next h
  · exact hs.haltedNoOp
  · exact hs.performed hc hroom

theorem State.Inv.batch {n : Nat} {s t : State} (hs : s.Inv) (h : batch n s = .next t) : t.Inv :=
  batch_keeps stepKeepsTheInvariant hs h

theorem withinCap_zero (cap : Option Nat) : withinCap cap 0 = true := (withinCap_iff cap 0).2 fun c _ => Nat.zero_le c

theorem State.Inv.resetOp {s : State} (h : s.Inv) : (resetOp s).Inv :=
  { h with
    ptr_lt := Nat.zero_lt_of_lt h.ptr_lt, tape_wf := rfl, tape_within := rfl
    inPos_le := by
      rw [resetOp_inPos]
      split
      · exact Nat.zero_le _
      · exact h.inPos_le
    pc_le := Nat.zero_le _, pc_past := fun hpast => absurd hpast (Nat.succ_ne_zero _).symm
    outCap_ok := withinCap_zero _ }

theorem tapeLen_pos_of_wf {c : Config} (h : c.wf = true) : 0 < c.tapeLen := by
  simp only [Config.wf, Bool.and_eq_true, decide_eq_true_eq] at h
  omega

/-- A `LOAD` within the capacities gives a state that meets the invariant, whatever was there before but the parameters
and the settings. -/
theorem loaded_inv {src inp : List Nat} {s : State} (hwf : s.config.wf = true)
    (hd : s.stepDelay < 2 ^ s.config.delayW) (hb : s.stepsPerBatch < 2 ^ s.config.batchW)
    (hprog : withinCap s.config.progCap (parse src).1.length = true)
    (hin : withinCap s.config.inCap inp.length = true) : (loaded src inp s).Inv where
  config_wf := hwf
  ptr_lt := tapeLen_pos_of_wf hwf
  tape_wf := rfl
  tape_within := rfl
  srcMap_length := parse_length src
  progCap_ok := hprog
  symbols_ok := parse_inAlphabet src
  srcMap_rising := parse_snd_pairwise_lt src
  inPos_le := Nat.zero_le _
  inCap_ok := by rw [loaded_config, loaded_inq, convertInput_length, hin]
  pc_le := Nat.zero_le _
  pc_past := fun hpast => absurd hpast (Nat.succ_ne_zero _).symm
  outCap_ok := withinCap_zero _
  stepDelay_lt := hd
  stepsPerBatch_lt := hb

/-- Power-on is the state after loading nothing (D11). -/
theorem poweredOn_eq_loaded (c : Config) (delay perBatch : Nat) :
    poweredOn c delay perBatch = loaded [] [] (poweredOn c delay perBatch) := rfl

theorem poweredOn_inv {c : Config} {delay perBatch : Nat} (wf : c.wf = true) (hd : delay < 2 ^ c.delayW)
    (hb : perBatch < 2 ^ c.batchW) : (poweredOn c delay perBatch).Inv := by
  rw [poweredOn_eq_loaded]
  exact loaded_inv wf hd hb (withinCap_zero _) (withinCap_zero _)

/-- Settles O42: `State.reset` is power-on with the default parameters and zero settings. -/
theorem resetMeetsTheInvariant : Obligations.ResetMeetsTheInvariant :=
  poweredOn_inv (c := Config.standard) (delay := 0) (perBatch := 0) (by decide) (by decide) (by decide)

/-! ### What a host operation can do (46_host_interface.md R125) -/

theorem getCell_of_ge {s : State} {i : Nat} (h : s.config.tapeLen ≤ i) :
    getCell i s = .refused .cellIndexOutsideTape := if_neg (Nat.not_lt_of_le h)

theorem getCell_next {i : Nat} {s t : State} {v : HostValue} (h : getCell i s = .next (t, v)) : t = s := by
  obtain hi | hi := Nat.lt_or_ge i s.config.tapeLen
  · rw [getCell_of_lt hi] at h; cases h; rfl
  · rw [getCell_of_ge hi] at h; cases h

theorem setDelay_of_lt {s : State} {d : Nat} (h : d < 2 ^ s.config.delayW) :
    setDelay d s = .next (s.withStepDelay d, .unit) := if_pos h

theorem setDelay_of_ge {s : State} {d : Nat} (h : 2 ^ s.config.delayW ≤ d) :
    setDelay d s = .refused .settingOutOfRange := if_neg (Nat.not_lt_of_le h)

theorem setDelay_next {d : Nat} {s t : State} {v : HostValue} (h : setDelay d s = .next (t, v)) :
    d < 2 ^ s.config.delayW ∧ t = s.withStepDelay d := by
  obtain hd | hd := Nat.lt_or_ge d (2 ^ s.config.delayW)
  · rw [setDelay_of_lt hd] at h; cases h; exact ⟨hd, rfl⟩
  · rw [setDelay_of_ge hd] at h; cases h

theorem setBatch_of_lt {s : State} {b : Nat} (h : b < 2 ^ s.config.batchW) :
    setBatch b s = .next (s.withStepsPerBatch b, .unit) := if_pos h

theorem setBatch_of_ge {s : State} {b : Nat} (h : 2 ^ s.config.batchW ≤ b) :
    setBatch b s = .refused .settingOutOfRange := if_neg (Nat.not_lt_of_le h)

theorem setBatch_next {b : Nat} {s t : State} {v : HostValue} (h : setBatch b s = .next (t, v)) :
    b < 2 ^ s.config.batchW ∧ t = s.withStepsPerBatch b := by
  obtain hb | hb := Nat.lt_or_ge b (2 ^ s.config.batchW)
  · rw [setBatch_of_lt hb] at h; cases h; exact ⟨hb, rfl⟩
  · rw [setBatch_of_ge hb] at h; cases h

/-- What a host operation has done when it answers a state: a `LOAD`, a `RESET`, some number of steps, or nothing but
writes of the host's registers, the settings among them fitting their widths if they did. -/
theorem hostOp_next {o : HostOp} {s t : State} {v : HostValue} (h : hostOp o s = .next (t, v)) :
    (∃ src inp, o = .load src inp ∧ loadOp src inp s = .next t) ∨
    (o = .reset ∧ t = resetOp s) ∨
    (∃ n, batch n s = .next t) ∨
    (∃ r p d b, t = withHostRegisters s.srcMap r p d b s ∧
      (d = s.stepDelay ∨ d < 2 ^ s.config.delayW) ∧ (b = s.stepsPerBatch ∨ b < 2 ^ s.config.batchW)) := by
  cases o with
  | load src inp => exact .inl ⟨src, inp, rfl, (withResult_next h).1⟩
  | reset => cases h; exact .inr (.inl ⟨rfl, rfl⟩)
  | step => exact .inr (.inr (.inl ⟨1, by rw [batch_succ_of_step (withResult_next h).1, batch]⟩))
  | batch n => exact .inr (.inr (.inl ⟨n, (withResult_next h).1⟩))
  | getCell i => exact .inr (.inr (.inl ⟨0, congrArg _ (getCell_next h).symm⟩))
  | setDelay d =>
    obtain ⟨hd, rfl⟩ := setDelay_next h
    exact .inr (.inr (.inr ⟨_, _, d, _, rfl, .inr hd, .inl rfl⟩))
  | setBatch b =>
    obtain ⟨hb, rfl⟩ := setBatch_next h
    exact .inr (.inr (.inr ⟨_, _, _, b, rfl, .inl rfl, .inr hb⟩))
  | mark m =>
    cases h
    exact .inr (.inr (.inr ⟨m.runState, s.pending, s.stepDelay, s.stepsPerBatch, rfl, .inl rfl, .inl rfl⟩))
  | schedule =>
    cases h
    exact .inr (.inr (.inr ⟨s.runState, true, s.stepDelay, s.stepsPerBatch, rfl, .inl rfl, .inl rfl⟩))
  | cancel =>
    cases h
    exact .inr (.inr (.inr ⟨s.runState, false, s.stepDelay, s.stepsPerBatch, rfl, .inl rfl, .inl rfl⟩))
  | _ => cases h; exact .inr (.inr (.inl ⟨0, rfl⟩))

/-- Settles O44, by what `hostOp_next` says the operation has done. -/
theorem hostOperationsKeepTheInvariant : Obligations.HostOperationsKeepTheInvariant := by
  intro o s t v hs h
  obtain ⟨src, inp, -, hload⟩ | ⟨-, rfl⟩ | ⟨n, hbatch⟩ | ⟨r, p, d, b, rfl, hd, hb⟩ := hostOp_next h
  · obtain ⟨rfl, -, -, -, hprog, hin⟩ := loadOp_next hload
    exact loaded_inv hs.config_wf hs.stepDelay_lt hs.stepsPerBatch_lt hprog hin
  · exact hs.resetOp
  · exact hs.batch hbatch
  · exact hs.withHostRegisters r p (hd.elim (· ▸ hs.stepDelay_lt) id) (hb.elim (· ▸ hs.stepsPerBatch_lt) id)

/-- Settles O45, by induction on how the state is reached. -/
theorem reachableStatesMeetTheInvariant : Obligations.ReachableStatesMeetTheInvariant := by
  intro s h
  induction h with
  | powerOn c delay perBatch wf hd hb => exact poweredOn_inv wf hd hb
  | op s t o v _ hop ih => exact hostOperationsKeepTheInvariant o s t v ih hop

/-! ### Progress and halting (60_exceptions.md R140, R142) -/

/-- From a state that meets the invariant a step answers a state, or is an `OUT` at a full buffer. -/
theorem State.Inv.step_total {s : State} (h : s.Inv) :
    (∃ t, step s = .next t) ∨
      (step s = .fault .outputFull ∧ s.imem[s.pc]? = some (encode .out) ∧ outputHasRoom s = false) := by
  by_cases hhalted : s.halted
  case pos => exact .inl ⟨_, step_of_halted hhalted⟩
  case neg =>
    obtain ⟨i, hf⟩ := fetch_total h.symbols_ok (Nat.lt_of_not_le hhalted)
    obtain ⟨-, hc⟩ := (fetch_ok_iff s i).1 hf
    rw [step_of_fetch hhalted hf, exec_of_ptr_lt h.ptr_lt]
    cases hfull : bufferFull i s with
    | false => exact .inl ⟨_, rfl⟩
    | true =>
      obtain ⟨rfl, hroom⟩ := (bufferFull_iff i s).1 hfull
      exact .inr ⟨rfl, hc, hroom⟩

theorem outputHasRoom_of_unbounded {s : State} (h : s.config.outCap = none) : outputHasRoom s = true := by
  rw [outputHasRoom, h, withinCap_none]

/-- A buffer within its capacity and with no room is at a finite capacity. -/
theorem outCap_of_outputHasRoom_false {s : State} (hcap : withinCap s.config.outCap s.out.length = true)
    (h : outputHasRoom s = false) : s.config.outCap = some s.out.length := by
  rw [outputHasRoom] at h
  cases hc : s.config.outCap with
  | none => rw [hc] at h; cases h
  | some c =>
    rw [hc] at h hcap
    simp only [withinCap, decide_eq_true_eq, decide_eq_false_iff_not] at h hcap
    congr 1
    omega

/-- Settles O46, by induction on the number of steps: a step keeps both the invariant and the parameters. -/
theorem stepsNeverFail : Obligations.StepsNeverFail := by
  intro n
  induction n with
  | zero => exact fun s _ _ => ⟨s, rfl⟩
  | succ n ih =>
    intro s hs hcap
    obtain ⟨u, hu⟩ | ⟨-, -, hfull⟩ := hs.step_total
    · rw [batch_succ_of_step hu]
      have hconfig : u.config = s.config := congrArg (·.config) (step_unwrittenPart hu)
      exact ih u (stepKeepsTheInvariant s u hs hu) (hconfig ▸ hcap)
    · rw [outputHasRoom_of_unbounded hcap] at hfull
      cases hfull

/-- Settles O47, by `State.Inv.step_total`. -/
theorem stuckOnlyAtAFullOutputBuffer : Obligations.StuckOnlyAtAFullOutputBuffer := by
  intro s hs hstuck
  obtain ⟨t, ht⟩ | ⟨hfault, hc, hfull⟩ := hs.step_total
  · exact absurd ht (hstuck t)
  · exact ⟨hfault, hc, outCap_of_outputHasRoom_false hs.outCap_ok hfull⟩

/-- Settles O48: of what `hostOp_next` lists, steps leave a halted machine as it is but for `RUN_STATE`, and the host's
registers are none of the six elements. -/
theorem haltingIsFinal : Obligations.HaltingIsFinal := by
  intro o s t v hhalted hreset hload h
  obtain ⟨src, inp, ho, -⟩ | ⟨ho, -⟩ | ⟨n, hbatch⟩ | ⟨r, p, d, b, rfl, -, -⟩ := hostOp_next h
  · exact absurd ho (hload src inp)
  · exact absurd ho hreset
  · cases n with
    | zero => cases hbatch; exact ⟨rfl, rfl, rfl, rfl, rfl, rfl⟩
    | succ n =>
      rw [batch_succ_of_halted hhalted] at hbatch
      cases hbatch
      exact ⟨rfl, rfl, rfl, rfl, rfl, rfl⟩
  · exact ⟨rfl, rfl, rfl, rfl, rfl, rfl⟩

end Sys2Proof.Machine

namespace Sys2Proof.Machine

/-! ### Decoding and encoding (30_encoding.md R60 to R67) -/

theorem decodeProgram_cons_encode {b : List Byte} {p : List Instr} (h : decodeProgram b = .ok p) (i : Instr) :
    decodeProgram (encode i :: b) = .ok (i :: p) := by
  rw [decodeProgram, decodeSymbol_encode, h]

theorem decodeProgram_encodeProgram (p : List Instr) : decodeProgram (encodeProgram p) = .ok p := by
  induction p with
  | nil => rfl
  | cons i p ih => exact decodeProgram_cons_encode ih i

/-- A sequence that decodes begins with a code, followed by a sequence that decodes. -/
theorem decodeProgram_cons_ok {c : Byte} {b : List Byte} {p : List Instr} (h : decodeProgram (c :: b) = .ok p) :
    ∃ i q, c = encode i ∧ decodeProgram b = .ok q ∧ p = i :: q := by
  rw [decodeProgram] at h
  cases hc : decodeSymbol c with
  | error e => rw [hc] at h; cases h
  | ok i =>
    rw [hc] at h
    cases hq : decodeProgram b with
    | error e => rw [hq] at h; cases h
    | ok q =>
      rw [hq] at h
      cases h
      exact ⟨i, q, (decodeSymbol_ok_iff c i).1 hc, rfl, rfl⟩

theorem eq_encodeProgram_of_decodeProgram {b : List Byte} {p : List Instr} (h : decodeProgram b = .ok p) :
    b = encodeProgram p := by
  induction b generalizing p with
  | nil => cases h; rfl
  | cons c b ih =>
    obtain ⟨i, q, rfl, hq, rfl⟩ := decodeProgram_cons_ok h
    rw [ih hq]
    rfl

theorem programInAlphabet_encodeProgram (p : List Instr) : programInAlphabet (encodeProgram p) = true := by
  simp [programInAlphabet, encodeProgram]

/-- A sequence of the alphabet is the encoding of some program. -/
theorem exists_encodeProgram_of_programInAlphabet {b : List Byte} (h : programInAlphabet b = true) :
    ∃ p, b = encodeProgram p := by
  induction b with
  | nil => exact ⟨[], rfl⟩
  | cons c b ih =>
    rw [programInAlphabet, List.all_cons, Bool.and_eq_true] at h
    obtain ⟨hc, hb⟩ := h
    obtain ⟨i, rfl⟩ := (inAlphabet_iff c).1 hc
    obtain ⟨p, rfl⟩ := ih hb
    exact ⟨i :: p, rfl⟩

/-- Settles O3: the sequences that decode are the encodings, and so are those of the alphabet. -/
theorem programsDecodeAndEncodeAgree : Obligations.ProgramsDecodeAndEncodeAgree := by
  refine ⟨fun i rest => ?symbol, decodeProgram_encodeProgram, fun b p => eq_encodeProgram_of_decodeProgram,
    fun b => ⟨fun h => ?decodes, fun ⟨p, h⟩ => ?inAlphabet⟩⟩
  case symbol => rw [decode, decodeSymbol_encode]
  case decodes =>
    obtain ⟨p, rfl⟩ := exists_encodeProgram_of_programInAlphabet h
    exact ⟨p, decodeProgram_encodeProgram p⟩
  case inAlphabet =>
    rw [eq_encodeProgram_of_decodeProgram h]
    exact programInAlphabet_encodeProgram p

/-- Settles O1: the eight words are the codes of the eight instructions. -/
theorem eightCodesDecodeToTheirInstructions : Obligations.EightCodesDecodeToTheirInstructions :=
  ⟨decodeTableWord_encode .right, decodeTableWord_encode .left, decodeTableWord_encode .inc,
    decodeTableWord_encode .dec, decodeTableWord_encode .out, decodeTableWord_encode .inp,
    decodeTableWord_encode .jz, decodeTableWord_encode .jnz⟩

/-- A word is an instruction of the opcode table exactly if it is that instruction's code, in 8 bits. -/
theorem decodeTableWord_some_iff (nbits n : Nat) (i : Instr) :
    decodeTableWord nbits n = some i ↔ nbits = 8 ∧ n = (encode i).toNat := by
  constructor
  · intro h
    rw [decodeTableWord] at h
    split at h
    case isTrue hword =>
      rw [decode] at h
      cases hc : decodeSymbol (BitVec.ofNat 8 n) with
      | error e => rw [hc] at h; cases h
      | ok j =>
        rw [hc] at h
        cases h
        refine ⟨hword.1, ?_⟩
        rw [← (decodeSymbol_ok_iff _ _).1 hc, BitVec.toNat_ofNat, Nat.mod_eq_of_lt hword.2]
    case isFalse => cases h
  · rintro ⟨rfl, rfl⟩
    exact decodeTableWord_encode i

theorem decodeTableWord_none_iff (nbits n : Nat) :
    decodeTableWord nbits n = none ↔ ∀ i, nbits = 8 → n ≠ (encode i).toNat := by
  rw [Option.eq_none_iff_forall_ne_some]
  exact forall_congr' fun i => (not_congr (decodeTableWord_some_iff nbits n i)).trans not_and

/-- The eight numbers are the codes of the eight instructions. -/
theorem mem_codes_iff (n : Nat) :
    n ∈ [0x3E, 0x3C, 0x2B, 0x2D, 0x2E, 0x2C, 0x5B, 0x5D] ↔ ∃ i : Instr, n = (encode i).toNat := by
  have hcodes : [0x3E, 0x3C, 0x2B, 0x2D, 0x2E, 0x2C, 0x5B, 0x5D] =
      [Instr.right, .left, .inc, .dec, .out, .inp, .jz, .jnz].map fun i => (encode i).toNat := rfl
  have hall : ∀ i : Instr, i ∈ [Instr.right, .left, .inc, .dec, .out, .inp, .jz, .jnz] := by
    intro i
    cases i <;> decide
  rw [hcodes, List.mem_map]
  exact ⟨fun ⟨i, _, h⟩ => ⟨i, h.symm⟩, fun ⟨i, h⟩ => ⟨i, hall i, h.symm⟩⟩

/-- Settles O2: the decoders read the eight codes and nothing else. -/
theorem unusedCodesAreRefused : Obligations.UnusedCodesAreRefused := by
  refine ⟨fun c hc => ?symbol, fun n _ => ?code, fun nbits n hword => ?word⟩
  case symbol => exact (decodeSymbol_error_iff c _).2 ⟨rfl, hc⟩
  case code =>
    rw [decodeTableWord_none_iff, mem_codes_iff, not_exists]
    exact forall_congr' fun i => forall_prop_of_true rfl
  case word =>
    rw [decodeTableWord_none_iff]
    intro i hbits hn
    have hlt : (encode i).toNat < 256 := (encode i).isLt
    omega

/-! ### Source and input texts (30_encoding.md R68, 40_load_and_loader.md R82, R83, 00_scope.md R5) -/

theorem parse_fst (src : List Nat) : (parse src).1 = src.filterMap symbolOfChar := parseFrom_fst 0 src

/-- A character that is no glyph is skipped. -/
theorem symbolOfChar_eq_none {ch : Nat} (h : ch ∉ [62, 60, 43, 45, 46, 44, 91, 93]) : symbolOfChar ch = none := by
  rw [Option.eq_none_iff_forall_ne_some]
  intro c hc
  obtain ⟨⟨i, rfl⟩, rfl⟩ := (symbolOfChar_iff ch c).1 hc
  exact h ((mem_codes_iff _).2 ⟨i, rfl⟩)

/-- Taking the comment out of a text does not change what is loaded. -/
theorem filterMap_symbolOfChar_filter (src : List Nat) :
    (src.filter fun ch => [62, 60, 43, 45, 46, 44, 91, 93].contains ch).filterMap symbolOfChar =
      src.filterMap symbolOfChar := by
  rw [List.filterMap_filter]
  refine List.filterMap_congr fun ch _ => ?_
  split
  case isTrue => rfl
  case isFalse h => exact (symbolOfChar_eq_none (mt List.contains_iff_mem.2 h)).symm

/-- The loader reads the codes of a program as that program's encoding. -/
theorem filterMap_symbolOfChar_codes (p : List Instr) :
    (p.map fun i => (encode i).toNat).filterMap symbolOfChar = encodeProgram p := by
  rw [List.filterMap_map, encodeProgram, ← List.filterMap_eq_map]
  exact List.filterMap_congr fun i _ => symbolOfChar_encode i

/-- Settles O5: the loader reads the same symbols with the comment taken out. -/
theorem commentsAreInert : Obligations.CommentsAreInert := by
  intro p src h
  have hprogram : (parse src).1 = encodeProgram p := by
    rw [parse_fst, ← filterMap_symbolOfChar_filter, h, filterMap_symbolOfChar_codes]
  refine ⟨?decodes, ?mapLength⟩
  case decodes => rw [hprogram, decodeProgram_encodeProgram]
  case mapLength => rw [parse_length, hprogram, encodeProgram, List.length_map]

theorem byteOfChar_of_le {ch : Nat} (h : ch ≤ 255) (cfg : Config) : byteOfChar cfg ch = BitVec.ofNat 8 ch := if_pos h

theorem byteOfChar_of_lookup {cfg : Config} {ch : Nat} {b : Byte} (h : 255 < ch)
    (hb : cfg.wideBytes.lookup ch = some b) : byteOfChar cfg ch = b := by
  rw [byteOfChar, if_neg (Nat.not_le_of_lt h), hb]

theorem toNat_byteOfChar_of_le {ch : Nat} (h : ch ≤ 255) (cfg : Config) : (byteOfChar cfg ch).toNat = ch := by
  rw [byteOfChar_of_le h, BitVec.toNat_ofNat]
  exact Nat.mod_eq_of_lt (Nat.lt_succ_of_le h)

/-- With no byte fixed by the implementation the default covers every character. -/
theorem toNat_byteOfChar_default {cfg : Config} (h : cfg.wideBytes = []) (ch : Nat) :
    (byteOfChar cfg ch).toNat = ch % 256 := by
  obtain hle | hlt := Nat.lt_or_ge 255 ch
  · rw [byteOfChar, if_neg (Nat.not_le_of_lt hle), h]
    simp
  · rw [toNat_byteOfChar_of_le hlt, Nat.mod_eq_of_lt (Nat.lt_succ_of_le hlt)]

/-- Settles O6: the conversion maps `byteOfChar` over the text. -/
theorem convertInputGivesOneByteEach : Obligations.ConvertInputGivesOneByteEach := by
  intro cfg inp
  refine ⟨convertInput_length cfg inp, fun k ch hch => ?each, fun ch h => toNat_byteOfChar_of_le h cfg,
    toNat_byteOfChar_default⟩
  case each => rw [convertInput, List.getElem?_map, hch, Option.map_some]

/-- The bytes of all characters of `charW` bits above 255, as the function `f` gives them. -/
def wideBytesOf (charW : Nat) (f : Nat → Byte) : List (Nat × Byte) :=
  ((List.range (2 ^ charW)).filter (255 < ·)).map fun ch => (ch, f ch)

theorem lookup_wideBytesOf {charW : Nat} {f : Nat → Byte} {ch : Nat} (hwide : 255 < ch) (hch : ch < 2 ^ charW) :
    (wideBytesOf charW f).lookup ch = some (f ch) :=
  List.lookup_graph f (List.mem_filter.2 ⟨List.mem_range.2 hch, decide_eq_true hwide⟩)

theorem mem_wideBytesOf {charW : Nat} {f : Nat → Byte} {p : Nat × Byte} (h : p ∈ wideBytesOf charW f) :
    255 < p.1 ∧ p.1 < 2 ^ charW := by
  obtain ⟨ch, hch, rfl⟩ := List.mem_map.1 h
  obtain ⟨hlt, hwide⟩ := List.mem_filter.1 hch
  exact ⟨of_decide_eq_true hwide, List.mem_range.1 hlt⟩

/-- The listed characters are those R5 lets the implementation choose a byte for. -/
theorem wf_with_wideBytesOf {c : Config} (h : c.wf = true) (f : Nat → Byte) :
    ({ c with wideBytes := wideBytesOf c.charW f } : Config).wf = true := by
  simp only [Config.wf, Bool.and_eq_true, decide_eq_true_eq, List.all_eq_true] at h ⊢
  obtain ⟨⟨⟨⟨⟨hlen, hsrc⟩, hcharW⟩, -⟩, hdelayW⟩, hbatchW⟩ := h
  exact ⟨⟨⟨⟨⟨hlen, hsrc⟩, hcharW⟩, fun p hp => mem_wideBytesOf hp⟩, hdelayW⟩, hbatchW⟩

/-- Settles O7: `wideBytesOf` lists the function on the characters above 255, and below it is the identity. -/
theorem everyByteOfCharIsCovered : Obligations.EveryByteOfCharIsCovered := by
  intro c f hwf hnarrow
  refine ⟨wideBytesOf c.charW f, wf_with_wideBytesOf hwf f, fun ch hch => ?_⟩
  obtain hwide | hle := Nat.lt_or_ge 255 ch
  · exact byteOfChar_of_lookup hwide (lookup_wideBytesOf hwide hch)
  · exact BitVec.eq_of_toNat_eq ((toNat_byteOfChar_of_le hle _).trans (hnarrow ch hle).symm)

theorem withinCap_eq_false_iff (cap : Option Nat) (n : Nat) :
    withinCap cap n = false ↔ ∃ c, cap = some c ∧ c < n := by
  cases cap <;> simp [withinCap]

/-- Settles O9: of texts made of characters `LOAD` is refused by the first check of a capacity that fails, and answers a
state where none does. -/
theorem loadRefusedExactlyWhenOverCapacity : Obligations.LoadRefusedExactlyWhenOverCapacity := by
  intro src inp s hsrc hinp
  have htexts : (textWf s.config src && textWf s.config inp) = true := by
    rw [(textWf_iff _ _).2 hsrc, (textWf_iff _ _).2 hinp, Bool.and_self]
  simp only [← withinCap_eq_false_iff]
  rw [loadOp, if_pos htexts]
  cases withinCap s.config.srcCap src.length with
  | false => simp
  | true =>
    cases withinCap s.config.progCap (parse src).1.length with
    | false => simp
    | true =>
      cases withinCap s.config.inCap inp.length with
      | false => simp
      | true => simp

end Sys2Proof.Machine

namespace Sys2Proof.Machine

/-! ### Bracket balances (45_jumps.md R115) -/

/-- `bal` over the indices `a ≤ k < b`. -/
def balBetween (imem : List Byte) (a b : Nat) : Int := bal ((imem.take b).drop a)

theorem balRange_eq (imem : List Byte) (a b : Nat) : balRange imem a b = balBetween imem a (b + 1) := rfl

@[simp] theorem balBetween_self (imem : List Byte) (a : Nat) : balBetween imem a a = 0 := by
  rw [balBetween, List.drop_take, Nat.sub_self, List.take_zero, bal]

/-- The balance of a run that begins at `a` is the symbol's at `a` and the rest's. -/
theorem balBetween_step {imem : List Byte} {a b : Nat} {c : Byte} (hc : imem[a]? = some c) (hab : a < b) :
    balBetween imem a b = bal [c] + balBetween imem (a + 1) b := by
  have htake : (imem.take b)[a]? = some c := (List.getElem?_take_of_lt hab).trans hc
  obtain ⟨hlt, hget⟩ := List.getElem?_eq_some_iff.1 htake
  rw [balBetween, List.drop_eq_getElem_cons hlt, hget, balBetween, ← List.singleton_append, bal_append]

/-- A balance over a run cut in two. -/
theorem balBetween_add {imem : List Byte} {a b c : Nat} (hab : a ≤ b) (hbc : b ≤ c) :
    balBetween imem a b + balBetween imem b c = balBetween imem a c := by
  have hcut : (imem.take c).drop a = (imem.take b).drop a ++ (imem.take c).drop b := by
    rw [← List.take_append_drop (b - a) ((imem.take c).drop a), List.drop_drop, Nat.add_sub_cancel' hab,
      ← List.drop_take, List.take_take, Nat.min_eq_left hbc]
  rw [balBetween, balBetween, balBetween, hcut, bal_append]

/-- The balance of a run that ends with the symbol at `b`. -/
theorem balBetween_succ {imem : List Byte} {a b : Nat} {c : Byte} (hab : a ≤ b) (hc : imem[b]? = some c) :
    balBetween imem a (b + 1) = balBetween imem a b + bal [c] := by
  rw [← balBetween_add hab (Nat.le_succ b), balBetween_step hc (Nat.lt_succ_self b), balBetween_self, add_zero]

theorem bal_jz : bal [encode .jz] = 1 := by decide

theorem bal_jnz : bal [encode .jnz] = -1 := by decide

/-- At a positive depth the forward scan's `DEPTH` adds up the balance. -/
theorem depthAfterFwd_eq {d : Nat} (hd : 0 < d) (c : Byte) : (depthAfterFwd c d : Int) = d + bal [c] := by
  simp only [depthAfterFwd, bal]
  split
  · omega
  · split <;> omega

/-- At a positive depth the backward scan's `DEPTH` takes the balance away. -/
theorem depthAfterBwd_eq {d : Nat} (hd : 0 < d) (c : Byte) : (depthAfterBwd c d : Int) = d - bal [c] := by
  have hne : encode .jz ≠ encode .jnz := by decide
  simp only [depthAfterBwd, bal]
  split
  case isTrue hc => rw [hc, if_neg hne.symm]; omega
  case isFalse => split <;> omega

/-! ### The forward scan -/

theorem fwdScan_cons_of_zero {c : Byte} {d : Nat} (h : depthAfterFwd c d = 0) (rest : List Byte) (p : Nat) :
    fwdScan (c :: rest) p d = p := if_pos h

theorem fwdScan_cons_of_ne_zero {c : Byte} {d : Nat} (h : depthAfterFwd c d ≠ 0) (rest : List Byte) (p : Nat) :
    fwdScan (c :: rest) p d = fwdScan rest (p + 1) (depthAfterFwd c d) := if_neg h

/-- The forward scan from position `p` at depth `d`: the depth stays positive up to the stop, and a stop inside the
program brings it to 0. -/
theorem fwdScan_balance {imem rest : List Byte} {p d : Nat} (hd : 0 < d) (hrest : imem.drop p = rest) :
    (∀ k, p ≤ k → k ≤ fwdScan rest p d → 0 < d + balBetween imem p k) ∧
    (fwdScan rest p d < imem.length → d + balBetween imem p (fwdScan rest p d + 1) = 0) := by
  induction rest generalizing p d with
  | nil =>
    rw [fwdScan]
    refine ⟨fun k hpk hkp => ?_, fun hlt => absurd (List.drop_eq_nil_iff.1 hrest) (Nat.not_le_of_lt hlt)⟩
    rw [Nat.le_antisymm hkp hpk, balBetween_self]
    omega
  | cons c rest ih =>
    have hc : imem[p]? = some c := by rw [← List.head?_drop, hrest, List.head?_cons]
    have htail : imem.drop (p + 1) = rest := by rw [← List.tail_drop, hrest, List.tail_cons]
    have hdepth : (depthAfterFwd c d : Int) = d + bal [c] := depthAfterFwd_eq hd c
    by_cases hzero : depthAfterFwd c d = 0
    case pos =>
      rw [fwdScan_cons_of_zero hzero]
      refine ⟨fun k hpk hkp => ?_, fun _ => ?_⟩
      · rw [Nat.le_antisymm hkp hpk, balBetween_self]
        omega
      · rw [balBetween_step hc (Nat.lt_succ_self p), balBetween_self]
        omega
    case neg =>
      rw [fwdScan_cons_of_ne_zero hzero]
      obtain ⟨hpositive, hstop⟩ := ih (Nat.pos_of_ne_zero hzero) htail
      refine ⟨fun k hpk hkp => ?_, fun hlt => ?_⟩
      · obtain rfl | hlt := Nat.eq_or_lt_of_le hpk
        · rw [balBetween_self]
          omega
        · have hrun := hpositive k hlt hkp
          rw [balBetween_step hc hlt]
          omega
      · have hpast : p + 1 ≤ fwdScan rest (p + 1) (depthAfterFwd c d) := by
          obtain h | ⟨h, -⟩ := fwdScan_spec rest (p + 1) (depthAfterFwd c d) <;> omega
        have hrun := hstop hlt
        rw [balBetween_step hc (by omega)]
        omega

/-- Up to `FwdStop` the brackets after the jump never balance to −1. -/
theorem balBetween_nonneg_of_le_fwdStop {imem : List Byte} {i k : Nat} (hik : i < k) (hk : k ≤ fwdStop imem i) :
    0 ≤ balBetween imem (i + 1) k := by
  have hpositive := (fwdScan_balance (imem := imem) (p := i + 1) Nat.one_pos rfl).1 k hik hk
  omega

/-- At a `FwdStop` inside the program they do. -/
theorem balBetween_fwdStop {imem : List Byte} {i : Nat} (h : fwdStop imem i < imem.length) :
    balBetween imem (i + 1) (fwdStop imem i + 1) = -1 := by
  have hstop : _ + balBetween imem (i + 1) (fwdStop imem i + 1) = 0 :=
    (fwdScan_balance (imem := imem) (p := i + 1) Nat.one_pos rfl).2 h
  omega

/-- Settles O34: `balBetween_fwdStop` at the stop and `balBetween_nonneg_of_le_fwdStop` before it. -/
theorem fwdStopIsTheFirstBalance : Obligations.FwdStopIsTheFirstBalance := by
  intro imem i hi
  refine ⟨fun j hij hj => ?before, (fwdStop_spec hi).imp_right fun ⟨hpast, hlt, _⟩ => ⟨hpast, hlt, ?stop⟩⟩
  case before =>
    have hnonneg : 0 ≤ balBetween imem (i + 1) (j + 1) := balBetween_nonneg_of_le_fwdStop (by omega) hj
    rw [balRange_eq]
    omega
  case stop => exact balBetween_fwdStop hlt

/-- `FwdStop` is where the brackets after the jump first balance to −1. -/
theorem fwdStop_eq_of_balBetween {imem : List Byte} {i j : Nat} (hij : i < j) (hj : j < imem.length)
    (hbal : balBetween imem (i + 1) (j + 1) = -1)
    (hbefore : ∀ k, i < k → k < j → balBetween imem (i + 1) (k + 1) ≠ -1) : fwdStop imem i = j := by
  obtain hlt | heq | hgt := Nat.lt_trichotomy (fwdStop imem i) j
  · have hi : i < imem.length := hij.trans hj
    have hstop : fwdStop imem i < imem.length := hlt.trans hj
    obtain ⟨hpast, -⟩ := (fwdStop_spec hi).resolve_left (Nat.ne_of_lt hstop)
    exact absurd (balBetween_fwdStop hstop) (hbefore _ hpast hlt)
  · exact heq
  · have hnonneg : 0 ≤ balBetween imem (i + 1) (j + 1) := balBetween_nonneg_of_le_fwdStop (by omega) hgt
    omega

/-! ### The backward scan -/

theorem bwdScan_succ_of_zero {imem : List Byte} {p d : Nat} {c : Byte} (hc : imem[p]? = some c)
    (h : depthAfterBwd c d = 0) : bwdScan imem (p + 1) d = some p := by
  simp only [bwdScan, hc, if_pos h]

theorem bwdScan_succ_of_ne_zero {imem : List Byte} {p d : Nat} {c : Byte} (hc : imem[p]? = some c)
    (h : depthAfterBwd c d ≠ 0) : bwdScan imem (p + 1) d = bwdScan imem p (depthAfterBwd c d) := by
  simp only [bwdScan, hc, if_neg h]

/-- One past the stop of a backward scan, 0 where it runs off the start: down to there the depth stays positive. -/
def bwdLimit (o : Option Nat) : Nat := o.elim 0 (· + 1)

/-- The backward scan from position `p` at depth `d`: the depth stays positive down to the stop, and the stop brings it
to 0. -/
theorem bwdScan_balance {imem : List Byte} {p d : Nat} (hd : 0 < d) (hp : p ≤ imem.length) :
    (∀ k, bwdLimit (bwdScan imem p d) ≤ k → k ≤ p → balBetween imem k p < d) ∧
    (∀ j, bwdScan imem p d = some j → balBetween imem j p = d) := by
  induction p generalizing d with
  | zero =>
    refine ⟨fun k _ hk => ?_, fun j hj => nomatch hj⟩
    rw [Nat.le_zero.1 hk, balBetween_self]
    omega
  | succ p ih =>
    obtain ⟨c, hc⟩ : ∃ c, imem[p]? = some c := ⟨_, List.getElem?_eq_getElem hp⟩
    have hdepth : (depthAfterBwd c d : Int) = d - bal [c] := depthAfterBwd_eq hd c
    by_cases hzero : depthAfterBwd c d = 0
    case pos =>
      rw [bwdScan_succ_of_zero hc hzero]
      refine ⟨fun k hk hkp => ?_, fun j hj => ?_⟩
      · rw [Nat.le_antisymm hkp hk, balBetween_self]
        omega
      · cases hj
        rw [balBetween_succ (Nat.le_refl p) hc, balBetween_self]
        omega
    case neg =>
      rw [bwdScan_succ_of_ne_zero hc hzero]
      obtain ⟨hpositive, hstop⟩ := ih (Nat.pos_of_ne_zero hzero) (Nat.le_of_succ_le hp)
      refine ⟨fun k hk hkp => ?_, fun j hj => ?_⟩
      · obtain rfl | hlt := Nat.eq_or_lt_of_le hkp
        · rw [balBetween_self]
          omega
        · have hrun := hpositive k hk (Nat.le_of_lt_succ hlt)
          rw [balBetween_succ (Nat.le_of_lt_succ hlt) hc]
          omega
      · have hjp : j < p := (bwdScan_spec (Nat.pos_of_ne_zero hzero) hj).1
        have hrun := hstop j hj
        rw [balBetween_succ hjp.le hc]
        omega

/-- Down to `BwdStop` the brackets before the jump never balance to 1. -/
theorem balBetween_nonpos_of_bwdStop {imem : List Byte} {i j k : Nat} (hi : i ≤ imem.length)
    (h : bwdStop imem i = some j) (hjk : j < k) (hki : k ≤ i) : balBetween imem k i ≤ 0 := by
  have hpositive := (bwdScan_balance Nat.one_pos hi).1 k (by rw [← bwdStop, h]; exact hjk) hki
  omega

/-- At `BwdStop` they do. -/
theorem balBetween_bwdStop {imem : List Byte} {i j : Nat} (hi : i ≤ imem.length) (h : bwdStop imem i = some j) :
    balBetween imem j i = 1 :=
  (bwdScan_balance Nat.one_pos hi).2 j h

/-- Where the backward scan runs off the start they never do. -/
theorem balBetween_nonpos_of_underflow {imem : List Byte} {i k : Nat} (hi : i ≤ imem.length)
    (h : bwdStop imem i = none) (hki : k ≤ i) : balBetween imem k i ≤ 0 := by
  have hpositive := (bwdScan_balance Nat.one_pos hi).1 k (by rw [← bwdStop, h]; exact Nat.zero_le k) hki
  omega

theorem balRange_pred {imem : List Byte} {k i : Nat} (h : k < i) : balRange imem k (i - 1) = balBetween imem k i := by
  rw [balRange_eq, Nat.sub_add_cancel (Nat.zero_lt_of_lt h)]

/-- Settles O35: `balBetween_bwdStop` at the stop, and a balance of at most 0 between it and the jump. -/
theorem bwdStopIsTheLastBalance : Obligations.BwdStopIsTheLastBalance := by
  intro imem i hi
  refine ⟨fun j hj => ?found, fun hnone k hki => ?underflow⟩
  case found =>
    have hji : j < i := (bwdStop_spec hj).1
    refine ⟨hji, (balRange_pred hji).trans (balBetween_bwdStop hi.le hj), fun k hjk hki => ?_⟩
    have hnonpos : balBetween imem k i ≤ 0 := balBetween_nonpos_of_bwdStop hi.le hj hjk hki.le
    rw [balRange_pred hki]
    omega
  case underflow =>
    have hnonpos : balBetween imem k i ≤ 0 := balBetween_nonpos_of_underflow hi.le hnone hki.le
    rw [balRange_pred hki]
    omega

/-- `BwdStop` is where the brackets before the jump last balance to 1. -/
theorem bwdStop_eq_of_balBetween {imem : List Byte} {i j : Nat} (hi : i ≤ imem.length) (hji : j < i)
    (hbal : balBetween imem j i = 1) (hafter : ∀ k, j < k → k < i → balBetween imem k i ≠ 1) :
    bwdStop imem i = some j := by
  cases hstop : bwdStop imem i with
  | none =>
    have hnonpos : balBetween imem j i ≤ 0 := balBetween_nonpos_of_underflow hi hstop hji.le
    omega
  | some l =>
    obtain hlt | rfl | hgt := Nat.lt_trichotomy l j
    · have hnonpos : balBetween imem j i ≤ 0 := balBetween_nonpos_of_bwdStop hi hstop hlt hji.le
      omega
    · rfl
    · exact absurd (balBetween_bwdStop hi hstop) (hafter l hgt (bwdStop_spec hstop).1)

/-! ### Matching is mutual (45_jumps.md R121) -/

/-- The match of a `JZ` is a `JNZ` whose match is the `JZ`: between the two the brackets balance to 0, and what follows
an index between them to at most 0. -/
theorem bwdStop_fwdStop {imem : List Byte} {i : Nat} (hi : imem[i]? = some (encode .jz))
    (h : fwdStop imem i < imem.length) :
    imem[fwdStop imem i]? = some (encode .jnz) ∧ bwdStop imem (fwdStop imem i) = some i := by
  obtain ⟨hpast, -, hjnz⟩ := (fwdStop_spec (List.getElem?_eq_some_iff.1 hi).1).resolve_left (Nat.ne_of_lt h)
  have hbody : balBetween imem (i + 1) (fwdStop imem i) = 0 := by
    have hlast := balBetween_succ (a := i + 1) hpast hjnz
    rw [balBetween_fwdStop h, bal_jnz] at hlast
    omega
  refine ⟨hjnz, bwdStop_eq_of_balBetween h.le hpast ?_ fun k hik hk => ?_⟩
  · rw [balBetween_step hi hpast, bal_jz, hbody]
    rfl
  · have hsplit : balBetween imem (i + 1) k + balBetween imem k (fwdStop imem i) = _ := balBetween_add hik hk.le
    have hnonneg := balBetween_nonneg_of_le_fwdStop hik hk.le
    omega

/-- The match of a `JNZ` is a `JZ` whose match is the `JNZ`. -/
theorem fwdStop_bwdStop {imem : List Byte} {i j : Nat} (hj : imem[j]? = some (encode .jnz))
    (h : bwdStop imem j = some i) : imem[i]? = some (encode .jz) ∧ fwdStop imem i = j := by
  obtain ⟨hij, hjz⟩ := bwdStop_spec h
  have hjlen : j < imem.length := (List.getElem?_eq_some_iff.1 hj).1
  have hbody : balBetween imem (i + 1) j = 0 := by
    have hfirst := balBetween_step hjz hij
    rw [balBetween_bwdStop hjlen.le h, bal_jz] at hfirst
    omega
  refine ⟨hjz, fwdStop_eq_of_balBetween hij hjlen ?_ fun k hik hk => ?_⟩
  · rw [balBetween_succ hij hj, bal_jnz, hbody]
    rfl
  · have hsplit : balBetween imem (i + 1) (k + 1) + balBetween imem (k + 1) j = _ :=
      balBetween_add (Nat.succ_le_succ hik.le) hk
    have hnonpos : balBetween imem (k + 1) j ≤ 0 :=
      balBetween_nonpos_of_bwdStop hjlen.le h (Nat.lt_succ_of_lt hik) hk
    omega

/-- Settles O36: `bwdStop_fwdStop` and `fwdStop_bwdStop`. -/
theorem bracketsMatchMutually : Obligations.BracketsMatchMutually :=
  ⟨fun _ _ => bwdStop_fwdStop, fun _ _ _ => fwdStop_bwdStop⟩

end Sys2Proof.Machine

namespace Sys2Proof.Machine

/-! ### `OUT`, `JNZ` and the program counter (44_io.md R110, 45_jumps.md R119, R120, 41_step_cycle.md R93) -/

theorem outputHasRoom_iff (s : State) :
    outputHasRoom s = true ↔ ∀ c, s.config.outCap = some c → s.out.length < c :=
  withinCap_iff _ _

/-- Settles O23: with room in the buffer `exec_out` appends the current cell and makes the advance. -/
theorem outAppendsTheCurrentCell : Obligations.OutAppendsTheCurrentCell := by
  intro s hptr hroom
  rw [exec_out hptr, if_pos ((outputHasRoom_iff s).2 hroom)]
  rfl

/-- Settles O24: at its capacity the buffer has no room. -/
theorem outIsStuckAtItsCapacity : Obligations.OutIsStuckAtItsCapacity := by
  intro s c hptr hcap hfull
  have hnoRoom : ¬ outputHasRoom s = true := fun hroom =>
    absurd ((outputHasRoom_iff s).1 hroom c hcap) (Nat.not_lt_of_le hfull)
  rw [exec_out hptr, if_neg hnoRoom]

/-- Settles O29: the three cases of `JNZ`, by the value of `pcAfterJnz`. -/
theorem jnzJumpsOnANonzeroCell : Obligations.JnzJumpsOnANonzeroCell := by
  intro s hptr
  refine ⟨fun hz => exec_jnz_of_zero hptr hz, fun j hz hj => ?matched, fun hz hnone => ?unmatched⟩
  case matched =>
    obtain ⟨hlt, hjz⟩ := bwdStop_spec hj
    exact ⟨hjz, hlt, by rw [exec_jnz_of_ne_zero hptr hz, pcAfterJnz_of_some hj]⟩
  case unmatched => rw [exec_jnz_of_ne_zero hptr hz, pcAfterJnz_of_none hnone]

/-- Settles O30: the jump leaves `PC = PLEN`, where the machine is halted. -/
theorem jnzUnmatchedHalts : Obligations.JnzUnmatchedHalts := by
  intro s hptr hp hc hz hnone
  have hstep : step s = .next { s with pc := s.imem.length } := by
    rw [step_of_code hp hc, exec_jnz_of_ne_zero hptr hz, pcAfterJnz_of_none hnone]
  have hhalted : ({ s with pc := s.imem.length } : State).halted := Nat.le_refl _
  refine ⟨?answer, fun n => ?later⟩
  case answer => rw [hostOp_step_of_next hstep, State.continues_of_halted hhalted]
  case later => rw [batch_succ_of_step hstep, batch_succ_of_halted hhalted, haltedNoOp_eq]

/-- Settles O18: an instruction that answers a state has left `pcAfter` there. -/
theorem pcAfterEveryInstruction : Obligations.PcAfterEveryInstruction := by
  intro i s t h
  rw [(exec_next h).1, performed_pc]
  cases i <;> rfl

/-- Settles O31: `exec_of_ptr_ge`, where the two moves are the instructions that use no cell. -/
theorem pointerOutsideTheTapeStops : Obligations.PointerOutsideTheTapeStops := by
  intro s hptr
  refine ⟨fun i hi => ?stops, fun i hi => ?answers⟩
  case stops =>
    have huses : usesCell i = true := by fin_cases hi <;> rfl
    rw [exec_of_ptr_ge hptr, if_pos huses]
  case answers =>
    have hmove : ¬ usesCell i = true := by fin_cases hi <;> exact Bool.false_ne_true
    exact ⟨performed i s, by rw [exec_of_ptr_ge hptr, if_neg hmove]⟩

/-- Settles O50: only an unmatched `JZ` takes `PC` past `PLEN`, and such a program is malformed. -/
theorem wellNestedProgramsNeverPassTheEnd : Obligations.WellNestedProgramsNeverPassTheEnd := by
  intro n s t hnested hpc h
  have hkeeps : ∀ u v : State, (¬ malformed u.imem ∧ u.pc ≤ u.plen) → step u = .next v →
      ¬ malformed v.imem ∧ v.pc ≤ v.plen := by
    rintro u v ⟨hnested, hpc⟩ hstep
    obtain ⟨-, rfl⟩ | ⟨-, i, hc, rfl, -⟩ := step_next hstep
    · exact ⟨hnested, hpc⟩
    · refine ⟨hnested, ?_⟩
      obtain hle | ⟨rfl, hoff, -⟩ := pcAfter_le (List.getElem?_eq_some_iff.1 hc).1 i
      · exact hle
      · exact absurd ⟨u.pc, .inl ⟨hc, hoff⟩⟩ hnested
  exact (batch_keeps hkeeps ⟨hnested, hpc⟩ h).2

/-! ### Sequences of instructions (42_pointer_moves.md R102, 43_cell_arith.md R107) -/

theorem execAll_cons {i : Instr} {s t : State} (h : exec i s = .next t) (is : List Instr) :
    execAll (i :: is) s = execAll is t := by
  rw [execAll, h]

/-- The pointer `k` cells further to the right, around the tape, and `PC` on by `n`. -/
def moved (k n : Nat) (s : State) : State := { s with ptr := (s.ptr + k) % s.config.tapeLen, pc := s.pc + n }

theorem moved_moved (k l m n : Nat) (s : State) : moved l n (moved k m s) = moved (k + l) (m + n) s := by
  simp only [moved, Nat.mod_add_mod, Nat.add_assoc]

/-- A move by a multiple of `TAPE_LEN` cells comes back. -/
theorem moved_of_mul {s : State} (hptr : s.ptr < s.config.tapeLen) (m n : Nat) :
    moved (s.config.tapeLen * m) n s = { s with pc := s.pc + n } := by
  rw [moved, Nat.add_mul_mod_self_left, Nat.mod_eq_of_lt hptr]

theorem exec_right_eq_moved (s : State) : exec .right s = .next (moved 1 1 s) := exec_right_eq s

/-- `LEFT` is a move to the right by all but one of the cells. -/
theorem exec_left_eq_moved {s : State} (hlen : 0 < s.config.tapeLen) :
    exec .left s = .next (moved (s.config.tapeLen - 1) 1 s) := by
  rw [exec_left_eq, ptrAfterLeft, Nat.add_sub_assoc hlen, moved]

/-- One move each way is a move by all the cells of the tape. -/
theorem moved_tapeLen {s : State} (hptr : s.ptr < s.config.tapeLen) (n : Nat) :
    moved s.config.tapeLen n s = { s with pc := s.pc + n } := by
  rw [← moved_of_mul hptr 1 n, Nat.mul_one]

/-- `n` moves of one kind, by `k` cells each. -/
theorem execAll_replicate_move {i : Instr} {k : Nat} {s : State} (hptr : s.ptr < s.config.tapeLen)
    (hmove : ∀ u : State, u.config = s.config → exec i u = .next (moved k 1 u)) (n : Nat) :
    execAll (List.replicate n i) s = .next (moved (n * k) n s) := by
  induction n generalizing s with
  | zero => rw [Nat.zero_mul, moved, Nat.add_zero, Nat.mod_eq_of_lt hptr]; rfl
  | succ n ih =>
    have hnext : (moved k 1 s).ptr < (moved k 1 s).config.tapeLen := Nat.mod_lt _ (Nat.zero_lt_of_lt hptr)
    rw [List.replicate_succ, execAll_cons (hmove s rfl), ih hnext hmove, moved_moved, Nat.succ_mul,
      Nat.add_comm k, Nat.add_comm 1]

/-- Settles O32: both moves are moves to the right, by one cell or by all but one, and a move by a multiple of
`TAPE_LEN` cells comes back. -/
theorem pointerMovesAreInverse : Obligations.PointerMovesAreInverse := by
  intro s hptr
  have hlen : 0 < s.config.tapeLen := Nat.zero_lt_of_lt hptr
  have hleft : ∀ u : State, u.config = s.config → exec .left u = .next (moved (s.config.tapeLen - 1) 1 u) := by
    intro u hu
    rw [← hu] at hlen ⊢
    exact exec_left_eq_moved hlen
  refine ⟨?rightLeft, ?leftRight, ?allRight, ?allLeft⟩
  case rightLeft =>
    rw [execAll_cons (exec_right_eq_moved s), execAll_cons (hleft (moved 1 1 s) rfl), execAll, moved_moved,
      Nat.add_sub_cancel' hlen, moved_tapeLen hptr]
  case leftRight =>
    rw [execAll_cons (hleft s rfl), execAll_cons (exec_right_eq_moved _), execAll, moved_moved,
      Nat.sub_add_cancel hlen, moved_tapeLen hptr]
  case allRight => rw [execAll_replicate_move hptr (fun u _ => exec_right_eq_moved u), moved_of_mul hptr]
  case allLeft => rw [execAll_replicate_move hptr hleft, moved_of_mul hptr]

/-- The byte of a cell after an `INC` or a `DEC`. -/
def arithByte : Instr → Byte → Byte
  | .inc, v => incByte v
  | .dec, v => decByte v
  | _, v => v

/-- The byte of a cell after a sequence of `INC` and `DEC`. -/
def arithBytes (is : List Instr) (v : Byte) : Byte := is.foldl (fun w i => arithByte i w) v

theorem arithBytes_cons (i : Instr) (is : List Instr) (v : Byte) :
    arithBytes (i :: is) v = arithBytes is (arithByte i v) := rfl

theorem exec_arith {i : Instr} (hi : i = .inc ∨ i = .dec) {s : State} (hptr : s.ptr < s.config.tapeLen) :
    exec i s = .next { s with tape := s.tape.write s.ptr (arithByte i (s.tape.read s.ptr)), pc := s.pc + 1 } := by
  obtain rfl | rfl := hi
  · exact exec_inc_eq hptr
  · exact exec_dec_eq hptr

/-- A sequence of `INC` and `DEC` writes the current cell and counts `PC` on. -/
theorem execAll_arith {is : List Instr} (his : ∀ i ∈ is, i = .inc ∨ i = .dec) {s : State}
    (hptr : s.ptr < s.config.tapeLen) (hwf : s.tape.wf = true) :
    execAll is s =
      .next { s with tape := s.tape.write s.ptr (arithBytes is (s.tape.read s.ptr)), pc := s.pc + is.length } := by
  induction is generalizing s with
  | nil => simp only [execAll, arithBytes, List.foldl_nil, Memory.write_read_self hwf, List.length_nil, Nat.add_zero]
  | cons i is ih =>
    obtain ⟨hi, his⟩ := List.forall_mem_cons.1 his
    have hcount : s.pc + 1 + is.length = s.pc + (i :: is).length := by rw [List.length_cons]; omega
    have hrest := ih (s := { s with tape := s.tape.write s.ptr (arithByte i (s.tape.read s.ptr)), pc := s.pc + 1 })
      his hptr (Memory.wf_write hwf _ _)
    rw [execAll_cons (exec_arith hi hptr), hrest]
    simp only [Memory.read_write_same hwf, Memory.write_write hwf, hcount, arithBytes_cons]

/-- A sequence that gives the cell its byte back gives the whole tape back, as the same data. -/
theorem execAll_arith_of_restores {is : List Instr} (his : ∀ i ∈ is, i = .inc ∨ i = .dec) {s : State}
    (hptr : s.ptr < s.config.tapeLen) (hwf : s.tape.wf = true)
    (hrestores : arithBytes is (s.tape.read s.ptr) = s.tape.read s.ptr) :
    execAll is s = .next { s with pc := s.pc + is.length } := by
  rw [execAll_arith his hptr hwf, hrestores, Memory.write_read_self hwf]

theorem toNat_arithBytes_replicate_inc (n : Nat) (v : Byte) :
    (arithBytes (List.replicate n .inc) v).toNat = (v.toNat + n) % 256 := by
  induction n generalizing v with
  | zero => exact (Nat.mod_eq_of_lt v.isLt).symm
  | succ n ih =>
    rw [List.replicate_succ, arithBytes_cons, ih, arithByte, toNat_incByte]
    omega

theorem toNat_arithBytes_replicate_dec (n : Nat) (v : Byte) :
    (arithBytes (List.replicate n .dec) v).toNat = (v.toNat + 255 * n) % 256 := by
  induction n generalizing v with
  | zero => exact (Nat.mod_eq_of_lt v.isLt).symm
  | succ n ih =>
    rw [List.replicate_succ, arithBytes_cons, ih, arithByte, toNat_decByte]
    omega

theorem arithBytes_replicate_inc_256 (v : Byte) : arithBytes (List.replicate 256 .inc) v = v := by
  have hv : v.toNat < 256 := v.isLt
  refine BitVec.eq_of_toNat_eq ?_
  rw [toNat_arithBytes_replicate_inc]
  omega

theorem arithBytes_replicate_dec_256 (v : Byte) : arithBytes (List.replicate 256 .dec) v = v := by
  have hv : v.toNat < 256 := v.isLt
  refine BitVec.eq_of_toNat_eq ?_
  rw [toNat_arithBytes_replicate_dec]
  omega

/-- Settles O33: each of the four sequences gives the cell its byte back, and `n` `INC`s add `n`. -/
theorem cellArithmeticLaws : Obligations.CellArithmeticLaws := by
  intro s hptr hwf
  have hall : ∀ (n : Nat) {j : Instr}, j = .inc ∨ j = .dec → ∀ i ∈ List.replicate n j, i = .inc ∨ i = .dec :=
    fun n j hj i hi => List.eq_of_mem_replicate hi ▸ hj
  refine ⟨?incDec, ?decInc, ?incs, ?decs, fun n => ?addsN⟩
  case incDec => exact execAll_arith_of_restores (by decide) hptr hwf (decByte_incByte _)
  case decInc => exact execAll_arith_of_restores (by decide) hptr hwf (incByte_decByte _)
  case incs =>
    rw [execAll_arith_of_restores (hall 256 (.inl rfl)) hptr hwf (arithBytes_replicate_inc_256 _),
      List.length_replicate]
  case decs =>
    rw [execAll_arith_of_restores (hall 256 (.inr rfl)) hptr hwf (arithBytes_replicate_dec_256 _),
      List.length_replicate]
  case addsN =>
    refine ⟨_, execAll_arith (hall n (.inl rfl)) hptr hwf, ?_, fun a ha => Memory.read_write_other hwf ha _, ?_⟩
    · rw [Memory.read_write_same hwf, toNat_arithBytes_replicate_inc]
    · rw [List.length_replicate]

end Sys2Proof.Machine

namespace Sys2Proof.Machine

/-! ### Fetch and power-on (30_encoding.md R67, 41_step_cycle.md R92, 70_reset_and_hazards.md R157) -/

theorem fetch_of_foreign {s : State} (h : programInAlphabet s.imem = false) :
    fetch s = .error .symbolNotInAlphabet := by
  rw [fetch, if_neg (ne_true_of_eq_false h)]

/-- Settles O16: the fetch checks the whole program first. -/
theorem foreignSymbolsAreRefused : Obligations.ForeignSymbolsAreRefused := fun _ hpc hforeign =>
  step_of_fetch_error (Nat.not_le_of_lt hpc) (fetch_of_foreign hforeign)

theorem withFetchWord_encode (s : State) (i : Instr) :
    s.withFetchWord 8 (encode i).toNat = placeSymbol s (encode i) := by
  rw [State.withFetchWord, Nat.mod_eq_of_lt (encode i).isLt, BitVec.ofNat_toNat, BitVec.setWidth_eq]

theorem placeSymbol_of_lt {s : State} (h : s.pc < s.plen) (c : Byte) :
    placeSymbol s c = s.withProgram (s.imem.set s.pc c) s.srcMap := if_pos h

theorem placeSymbol_of_halted {s : State} (h : s.halted) (c : Byte) :
    placeSymbol s c = (s.withProgram [c] [0]).withPc 0 := if_neg (Nat.not_lt_of_le h)

theorem programInAlphabet_set {p : List Byte} (h : programInAlphabet p = true) (k : Nat) (i : Instr) :
    programInAlphabet (p.set k (encode i)) = true := by
  rw [programInAlphabet, List.all_eq_true] at h ⊢
  intro c hc
  obtain hc | rfl := List.mem_or_eq_of_mem_set hc
  · exact h c hc
  · exact inAlphabet_encode i

/-- Settles O17: running or halted, the symbol placed stands at `PC` in a program of the alphabet. -/
theorem fetchWordIsRunNext : Obligations.FetchWordIsRunNext := by
  intro i s hp
  rw [withFetchWord_encode]
  refine ⟨?next, fun hpc => ?placed⟩
  case placed => exact placeSymbol_of_lt hpc _
  case next =>
    obtain hpc | hhalted := Nat.lt_or_ge s.pc s.plen
    · rw [placeSymbol_of_lt hpc]
      exact step_of_code (programInAlphabet_set hp s.pc i) (List.getElem?_set_self hpc)
    · rw [placeSymbol_of_halted hhalted]
      exact step_of_code (programInAlphabet_encodeProgram [i]) rfl

/-- Loading nothing passes every check. -/
theorem loadOp_nil (s : State) : loadOp [] [] s = .next (loaded [] [] s) :=
  loadOp_of_fits rfl rfl (withinCap_zero _) (withinCap_zero _) (withinCap_zero _)

/-- Settles O12: `loadOp_nil`, and with an empty program `PC = 0` is halted already. -/
theorem powerOnIsAnEmptyLoad : Obligations.PowerOnIsAnEmptyLoad := by
  have hhalted : State.reset.halted := Nat.le_refl 0
  refine ⟨fun s hconfig => ?emptyLoad, hhalted, hostOp_step_of_halted hhalted⟩
  rw [loadOp_nil, loaded_eq, hconfig]
  rfl

/-! ### Registers and their widths (00_scope.md R5, D2, D9) -/

/-- `PTRW` is the least width with as many values as the tape has cells. -/
theorem ptrWidth_le_iff {c : Config} (w : Nat) : ptrWidth c ≤ w ↔ c.tapeLen ≤ 2 ^ w := by
  have hpow : 1 ≤ 2 ^ w := Nat.one_le_two_pow
  rw [ptrWidth]
  split
  case isTrue hlen => exact iff_of_true (Nat.zero_le w) (hlen.trans hpow)
  case isFalse hlen => rw [Nat.succ_le_iff, Nat.log2_lt (by omega)]; omega

/-- A finite `PROG_CAP` and one past it fit `PCW`. -/
theorem lt_two_pow_pcWidth {c : Config} {w : Nat} (h : pcWidth c = some w) :
    ∃ cap, c.progCap = some cap ∧ cap + 1 < 2 ^ w := by
  obtain ⟨cap, hcap, rfl⟩ := Option.map_eq_some_iff.1 h
  exact ⟨cap, hcap, Nat.lt_log2_self⟩

/-- Settles O49: `PTR` is an index of the tape, and `PC` is at most one past a program within `PROG_CAP`. -/
theorem registersFitTheirWidths : Obligations.RegistersFitTheirWidths := by
  intro s hs
  have hcells : s.config.tapeLen ≤ 2 ^ ptrWidth s.config := (ptrWidth_le_iff _).1 (Nat.le_refl _)
  refine ⟨hs.ptr_lt.trans_le hcells, hcells, fun w => (ptrWidth_le_iff w).2, fun w hw => ?pc⟩
  obtain ⟨cap, hcap, hlt⟩ := lt_two_pow_pcWidth hw
  have hplen : s.plen ≤ cap := (withinCap_iff _ _).1 hs.progCap_ok cap hcap
  have hpc : s.pc ≤ s.plen + 1 := hs.pc_le
  omega

/-! ### Batches and the run to completion (41_step_cycle.md R96, R97) -/

theorem batch_one (s : State) : batch 1 s = step s := by
  rw [batch]
  cases step s <;> rfl

/-- A batch that answers a state is followed by the rest of a longer one. -/
theorem batch_add {m : Nat} {s t : State} (h : batch m s = .next t) (n : Nat) : batch (m + n) s = batch n t := by
  induction m generalizing s with
  | zero => cases h; rw [Nat.zero_add]
  | succ m ih =>
    obtain ⟨u, hu, hrest⟩ := batch_succ h
    rw [Nat.succ_add, batch_succ_of_step hu, ih hrest]

theorem hostOp_batch (n : Nat) (s : State) :
    hostOp (.batch n) s = withResult (fun t => .continues t.continues) (batch n s) := rfl

/-- Settles O51: `batch_one` and `batch_add`. -/
theorem batchIsRepeatedSteps : Obligations.BatchIsRepeatedSteps := by
  refine ⟨fun s => rfl, fun s => ?single, fun m n s t h => ?composed⟩
  case single => rw [hostOp_batch, batch_one]; rfl
  case composed => rw [hostOp_batch, hostOp_batch, batch_add h]

/-- One round of the loop that answers a state: it ends there, halted, or goes on from the step's state. -/
theorem runToHalt_succ {fuel : Nat} {s t : State} (h : runToHalt (fuel + 1) s = some (.next t)) :
    (step s = .next t ∧ t.plen ≤ t.pc) ∨
      ∃ u, step s = .next u ∧ u.pc < u.plen ∧ runToHalt fuel u = some (.next t) := by
  rw [runToHalt] at h
  cases hstep : step s with
  | fault f => rw [hstep] at h; cases h
  | refused r => rw [hstep] at h; cases h
  | next u =>
    simp only [hstep] at h
    split at h
    case isTrue hgoes => exact .inr ⟨u, rfl, of_decide_eq_true hgoes, h⟩
    case isFalse hends =>
      cases h
      exact .inl ⟨rfl, Nat.le_of_not_lt fun hlt => hends (decide_eq_true hlt)⟩

/-- Settles O52, by induction on the fuel. -/
theorem runToHaltStopsAtTheFirstHalt : Obligations.RunToHaltStopsAtTheFirstHalt := by
  intro fuel
  induction fuel with
  | zero => exact fun s t h => nomatch h
  | succ fuel ih =>
    intro s t h
    obtain ⟨hstep, hhalted⟩ | ⟨u, hstep, hgoes, hrest⟩ := runToHalt_succ h
    · exact ⟨0, Nat.succ_pos fuel, by rw [batch_one, hstep], hhalted, fun m hm => absurd hm (Nat.not_lt_zero m)⟩
    · obtain ⟨n, hn, hbatch, hhalted, hbefore⟩ := ih u t hrest
      refine ⟨n + 1, Nat.succ_lt_succ hn, by rw [batch_succ_of_step hstep, hbatch], hhalted, fun m hm => ?_⟩
      cases m with
      | zero => exact ⟨u, by rw [batch_one, hstep], hgoes⟩
      | succ m =>
        rw [batch_succ_of_step hstep]
        exact hbefore m (Nat.lt_of_succ_lt_succ hm)

/-! ### Host operations that cannot fail or are refused (46_host_interface.md R127, R131 to R134) -/

/-- Settles O54, by `getCell_of_ge`. -/
theorem getCellOutsideTheTapeIsRefused : Obligations.GetCellOutsideTheTapeIsRefused := fun _ _ h => getCell_of_ge h

/-- Settles O55: a setting is stored exactly where it fits its width. -/
theorem settingsAreStored : Obligations.SettingsAreStored := fun _ _ =>
  ⟨setDelay_of_lt, setBatch_of_lt, setDelay_of_ge, setBatch_of_ge, rfl, rfl⟩

/-- Settles O56: each operation is one field's update, or an `answer` from the state as it is. -/
theorem marksAndSchedulesAreLabels : Obligations.MarksAndSchedulesAreLabels := fun _ => ⟨rfl, rfl, rfl, rfl, rfl⟩

/-! ### Reset after a run (70_reset_and_hazards.md R158) -/

/-- A `RESET` depends on the elements no step writes, and on the cursor. -/
theorem resetOp_eq_unwrittenPart (s : State) :
    resetOp s = { unwrittenPart s with
      pending := false, inPos := if s.config.resetRewindsInput then 0 else s.inPos } := rfl

/-- After any run from a `LOAD` the elements no step writes are those loaded, and `RESET` sets the others but the cursor
as `LOAD` did. -/
theorem resetOp_of_run {src inp : List Nat} {n : Nat} {s t : State} (h : batch n (loaded src inp s) = .next t) :
    resetOp t =
      { loaded src inp s with inPos := if s.config.resetRewindsInput then 0 else t.inPos } := by
  have hpart : unwrittenPart t = unwrittenPart (loaded src inp s) := batch_unwrittenPart h
  have hconfig : t.config = s.config := congrArg (·.config) hpart
  rw [resetOp_eq_unwrittenPart, hpart, hconfig]
  rfl

/-- Settles O57: `resetOp_of_run`, whose cursor is the loaded 0 where the `RESET` rewinds or the run read nothing; and a
`LOAD` forgets the run, which has left the parameters and settings as they were. -/
theorem resetGivesBackTheLoadedStateButForTheCursor : Obligations.ResetGivesBackTheLoadedStateButForTheCursor := by
  intro src inp n s u t hload hbatch
  obtain ⟨rfl, -⟩ := loadOp_next hload
  have hreset := resetOp_of_run hbatch
  refine ⟨hreset, fun hcursor => ?exact, ?reload⟩
  case exact =>
    have hloaded : resetOp t = loaded src inp s := by
      have hzero : (if s.config.resetRewindsInput then 0 else t.inPos) = 0 := by
        obtain hrewinds | hpos := hcursor
        · exact if_pos hrewinds
        · rw [hpos, ite_self]
      rw [hreset, hzero]
      rfl
    exact ⟨hloaded, by rw [hloaded, hbatch]⟩
  case reload =>
    have hpart : unwrittenPart t = unwrittenPart (loaded src inp s) := batch_unwrittenPart hbatch
    rw [← hload]
    exact loadForgetsTheEarlierRun src inp t s (congrArg (·.config) hpart) (congrArg (·.stepDelay) hpart)
      (congrArg (·.stepsPerBatch) hpart)

end Sys2Proof.Machine
